-- ==== Sys2Proof/Word.lean ====
section
/-! DEFINITION. The widths of the CORE block (spec/00_scope.md R8) and the plainest operations on them (R10, R11). -/

namespace Sys2Proof

/-- An 8-bit value: a register (`REG_W`) or a byte of memory (R8, R16, R32). -/
abbrev Byte := BitVec 8

/-- A 16-bit value: an instruction word (`INSN_W`), the pc (`PC_W`) or a call-stack slot (`STACK_W`) (R8). -/
abbrev Word := BitVec 16

/-- A 12-bit byte address of memory (`ADDR_W`) (R8, R40). -/
abbrev Addr := BitVec 12

/-- A 4-bit register index: every value names one of the 16 registers (R8, R17). -/
abbrev RegIx := BitVec 4

end Sys2Proof
end

