-- ==== Sys2Proof/Config.lean ====
section
/-! DEFINITION. The fixed parameters of spec/00_scope.md R8 that are not a width. The one open parameter, the start address
`pc0` (R9, D18), is no constant: it is the argument of the host's `load_pc` (Machine/HostPort.lean, log 13). No rule leaves
a value free, so nothing here is opaque. -/

namespace Sys2Proof.Config

/-- `NREG`: 16 general registers (R8). -/
abbrev nReg : Nat := 16

/-- `FLAG`: the index of the flag register VF (R8, R18). -/
abbrev flagReg : RegIx := 0xF#4

/-- `MEM_SIZE`: 4096 bytes of memory (R8, R32). -/
abbrev memSize : Nat := 4096

/-- `STACK_DEPTH`: 16 call-stack slots (R8, R22). -/
abbrev stackDepth : Nat := 16

/-- What a byte of memory that nothing has loaded reads as: 0x00 (R87, R31). -/
abbrev unloadedByte : Byte := 0x00#8

end Sys2Proof.Config
end

