-- ==== Sys2Proof/Syntax.lean ====
section
/-! DEFINITION. The instructions: one constructor per row of spec/opcode_table.json (spec/30_encoding.md R51). -/

namespace Sys2Proof

/-- The four instructions of R51, in the source's table order. -/
inductive Instr where
  /-- `HALT`: the word 0x0000 (R60). -/
  | halt
  /-- `RET`: the word 0x00EE (R62). -/
  | ret
  /-- `CALL nnn`: the words 0x2nnn; `nnn` is the absolute 12-bit target (R48, R61). -/
  | call (nnn : Addr)
  /-- `ADD Vx, Vy`: the words 0x8xy4; `x` is destination and first source, `y` the second source (R49, R67). -/
  | add (x y : RegIx)
deriving DecidableEq, Repr

end Sys2Proof
end

