-- ==== Sys2Proof/WellFormed.lean ====
section
/-! DEFINITION. Which operand values an instruction may have (spec/30_encoding.md R48, R49, R55).
An `Instr` holds its operands at their own widths, so it cannot be ill-formed; what can be is an instruction as a programmer
writes it, with plain numbers for operands. R55 bounds those numbers: "A value above 4095 is an assembly error, never
truncated". The text a programmer types is tooling and out of scope (spec/00_scope.md R4; log 16). -/

namespace Sys2Proof

/-- An instruction as written, before its operands are checked: one form per mnemonic of R55 (there are no others: R56). -/
inductive Asm where
  /-- `HALT`. -/
  | halt
  /-- `RET`. -/
  | ret
  /-- `CALL <addr>`, the address any number. -/
  | call (addr : Nat)
  /-- `ADD V<x>, V<y>`, the register numbers any numbers. -/
  | add (x y : Nat)
deriving DecidableEq, Repr

/-- The bounds of R55: an address is 0..4095, a register number 0..15. -/
def Asm.wellFormed : Asm → Bool
  | .halt => true
  | .ret => true
  | .call addr => decide (addr ≤ 4095)
  | .add x y => decide (x ≤ 15) && decide (y ≤ 15)

/-- The instruction a written one stands for; an ill-formed one is an assembly error, never truncated (R55). -/
def Asm.assemble : Asm → Option Instr
  | .halt => some .halt
  | .ret => some .ret
  | .call addr => if addr ≤ 4095 then some (.call (BitVec.ofNat 12 addr)) else none
  | .add x y => if x ≤ 15 ∧ y ≤ 15 then some (.add (BitVec.ofNat 4 x) (BitVec.ofNat 4 y)) else none

/-- An instruction read back as written (R55, R56: each mnemonic is exactly one instruction). -/
def Instr.toAsm : Instr → Asm
  | .halt => .halt
  | .ret => .ret
  | .call nnn => .call nnn.toNat
  | .add x y => .add x.toNat y.toNat

/-- An instruction is well-formed when its operands are within the bounds of R55. Every `Instr` is, by its operands' widths
(R17: "decode guarantees this"); `Laws/Decode.lean` proves it. -/
def Instr.wellFormed (i : Instr) : Bool := i.toAsm.wellFormed

end Sys2Proof
end

