-- ==== Sys2Proof/Decode.lean ====
section
/-! DEFINITION. The instruction decoder and the encoder (spec/30_encoding.md R46 to R54; byte order: spec/20_memory.md R35). -/

namespace Sys2Proof

/-! ## Words and bytes -/

/-- The word whose high byte is `hi` and low byte `lo`: `(hi << 8) | lo` (R35). -/
def wordOfBytes (hi lo : Byte) : Word := hi ++ lo

/-- The byte of a word that stands at the lower address (R35). -/
def highByte (w : Word) : Byte := w.extractLsb' 8 8

/-- The byte of a word that stands at the higher address (R35). -/
def lowByte (w : Word) : Byte := w.extractLsb' 0 8

/-- A word as memory holds it, first byte at the lower address (R35). -/
def bytesOfWord (w : Word) : List Byte := [highByte w, lowByte w]

/-! ## Fields -/

/-- The fields of the one instruction format (R46). `nnn` overlaps `x`, `y` and `d`. -/
structure Fields where
  /-- Operation family selector, bits 15:12. -/
  o : BitVec 4
  /-- First register operand, bits 11:8. -/
  x : BitVec 4
  /-- Second register operand, bits 7:4. -/
  y : BitVec 4
  /-- Operation variant, bits 3:0. -/
  d : BitVec 4
  /-- 12-bit immediate address, bits 11:0. -/
  nnn : BitVec 12
deriving DecidableEq, Repr

/-- `Decode(w)` of R47: pure bit slicing, total on every word. -/
def splitFields (w : Word) : Fields where
  o := w.extractLsb' 12 4
  x := w.extractLsb' 8 4
  y := w.extractLsb' 4 4
  d := w.extractLsb' 0 4
  nnn := w.extractLsb' 0 12

/-! ## The opcode map -/

/-- One row of the opcode map: its mnemonic in spec/opcode_table.json, its match value and its mask (R51). -/
structure OpcodeRow where
  mnemonic : String
  pattern : Word
  mask : Word
deriving DecidableEq, Repr

/-- A word matches a row when `(w & mask) == match` (R50). -/
def OpcodeRow.accepts (r : OpcodeRow) (w : Word) : Bool := (w &&& r.mask) == r.pattern

def haltRow : OpcodeRow := { mnemonic := "HALT", pattern := 0x0000#16, mask := 0xFFFF#16 }
def retRow : OpcodeRow := { mnemonic := "RET", pattern := 0x00EE#16, mask := 0xFFFF#16 }
def callRow : OpcodeRow := { mnemonic := "CALL", pattern := 0x2000#16, mask := 0xF000#16 }
def addRow : OpcodeRow := { mnemonic := "ADD", pattern := 0x8004#16, mask := 0xF00F#16 }

/-- The opcode map, in the table's order (R51). -/
def opcodeRows : List OpcodeRow := [haltRow, retRow, callRow, addRow]

/-- The row an instruction belongs to (R51). -/
def Instr.row : Instr → OpcodeRow
  | .halt => haltRow
  | .ret => retRow
  | .call _ => callRow
  | .add _ _ => addRow

/-! ## Decoding a word -/

/-- The five classes of illegal words (R52). -/
inductive IllegalClass where
  /-- `o = 0x0`, other than 0x0000 and 0x00EE. -/
  | family0
  /-- `o = 0x1`. -/
  | family1
  /-- `o = 0x3` to `0x7`. -/
  | families3to7
  /-- `o = 0x8`, `d != 0x4`. -/
  | family8Variant
  /-- `o = 0x9` to `0xF`. -/
  | families9toF
deriving DecidableEq, Repr

/-- The class of an illegal word, by its fields (R52). -/
def illegalClass (f : Fields) : IllegalClass :=
  if f.o = 0x0#4 then .family0
  else if f.o = 0x1#4 then .family1
  else if f.o.toNat ≤ 7 then .families3to7
  else if f.o = 0x8#4 then .family8Variant
  else .families9toF

/-- The decoder: the instruction a word names, or the class of illegal words it falls in. The rows are disjoint, so their
order does not matter (R50, R51, R52). -/
def decodeWord (w : Word) : Except IllegalClass Instr :=
  if haltRow.accepts w then .ok .halt
  else if retRow.accepts w then .ok .ret
  else if callRow.accepts w then .ok (.call (splitFields w).nnn)
  else if addRow.accepts w then .ok (.add (splitFields w).x (splitFields w).y)
  else .error (illegalClass (splitFields w))

/-! ## Decoding bytes -/

/-- Why a run of bytes does not begin with an instruction. -/
inductive DecodeReject where
  /-- Fewer than the two bytes every instruction has (R54). -/
  | fewerThanTwoBytes
  /-- The word of the first two bytes is illegal (R52, K7). -/
  | illegalWord (w : Word) (c : IllegalClass)
deriving DecidableEq, Repr

/-- The instruction at the front of a run of bytes, with the bytes after it: every instruction is two bytes (R54), high byte
first (R35). Total on any bytes. -/
def decodeBytes : List Byte → Except DecodeReject (Instr × List Byte)
  | hi :: lo :: rest =>
    match decodeWord (wordOfBytes hi lo) with
    | .ok i => .ok (i, rest)
    | .error c => .error (.illegalWord (wordOfBytes hi lo) c)
  | _ => .error .fewerThanTwoBytes

/-- A row's bits as the machine's word: `nbits` low bits of `w`, zero above them. -/
def tableWord (nbits w : Nat) : Word := BitVec.ofNat 16 (w % 2 ^ nbits)

/-- The instruction the decoder reads from a row's bits, laid out in memory order. -/
def decodeTableWord (nbits w : Nat) : Option Instr :=
  match decodeBytes (bytesOfWord (tableWord nbits w)) with
  | .ok (i, _) => some i
  | .error _ => none

/-! ## Encoding -/

/-- The word of an instruction: the bit patterns of R51, `0x2000 | addr` and `0x8004 | (x << 8) | (y << 4)` of R55. -/
def encode : Instr → Word
  | .halt => 0x0000#16
  | .ret => 0x00EE#16
  | .call nnn => 0x2#4 ++ nnn
  | .add x y => 0x8#4 ++ (x ++ (y ++ 0x4#4))

/-- The two bytes of an instruction as memory holds them (R35, R54). -/
def encodeBytes (i : Instr) : List Byte := bytesOfWord (encode i)

end Sys2Proof
end

