-- ==== Sys2Proof/Machine/State.lean ====
section
/-! DEFINITION. The state of the modelled system: exactly the tuple `(V, pc, S, SP, status, fault_kind, fault_addr,
fault_word, M)` of spec/10_state.md R15, and its value after reset (R31). -/

namespace Sys2Proof.Machine

/-- The run state (R25). Encoding 3 never occurs, so it has no constructor (log 1). -/
inductive Status where
  | running
  | halted
  | faulted
deriving DecidableEq, Repr

/-- The kind of a fault (R27, R71). Codes 5 to 7 never occur, so they have no constructor (log 1). -/
inductive FaultKind where
  | none
  | outOfBoundsFetch
  | stackOverflow
  | stackUnderflow
  | unimplementedInstruction
deriving DecidableEq, Repr

/-- Memory: (address, byte) pairs in one canonical form (`Memory.wf` in Machine/Ops.lean). An address that is not listed
reads as `Config.unloadedByte` (R87). -/
abbrev Memory := List Host.Cell

/-- The state of the modelled system (R15). -/
structure State where
  /-- The register file: 16 registers of 8 bits; `V[0xF]` is the carry flag VF (R16, R18). -/
  V : Vector Byte 16
  /-- The program counter: between steps, the address of the next instruction (R20). -/
  pc : Word
  /-- The call-stack slots (R22). -/
  S : Vector Word 16
  /-- The stack pointer: the number of live slots, 0 to 16 (R23; log 1). -/
  SP : Fin 17
  /-- The run state (R25). -/
  status : Status
  /-- The fault record: which fault (R27). -/
  faultKind : FaultKind
  /-- The fault record: the address of the instruction the fault is reported for (R27). -/
  faultAddr : Word
  /-- The fault record: the fetched word, or 0x0000 where nothing was fetched (R27). -/
  faultWord : Word
  /-- The 4096 bytes of memory (R32). -/
  M : Memory
deriving DecidableEq, Repr

/-- The state right after `reset`: the values of R31, R87 and R88. -/
def State.reset : State where
  V := Vector.replicate 16 0x00#8
  pc := 0x0000#16
  S := Vector.replicate 16 0x0000#16
  SP := 0
  status := .running
  faultKind := .none
  faultAddr := 0x0000#16
  faultWord := 0x0000#16
  M := []

/-- The model's own stops. `step` never ends in one: the four faults of the block are NEXT states with `status = faulted`
(R79; log 3). -/
inductive Fault where
  /-- Raised by the host action `loadMem` alone, for an address of 0x1000 or above: memory has no such byte (R40). Safe: no
  rule gives the access an effect, and no step of the block makes it (log 5). -/
  | noSuchMemoryByte (address : Nat)
deriving DecidableEq, Repr

/-- What the model refuses by name. `step` never ends in one. -/
inductive Refusal where
  /-- Raised by no arm: every instruction of the opcode table has its meaning. The host's interface asks for the name. Safe. -/
  | notModelled (mnemonic : String)
  /-- Raised by the host action `loadMem` alone, after the first step: "the host must not write memory" (R89), and K10 says
  `refuse`. Safe: a run with such a write is left without a next state (log 5). -/
  | memoryLoadAfterFirstStep
deriving DecidableEq, Repr

/-- How an instruction, a step or a host action on a `State` ends. -/
abbrev Result := Host.Outcome State Fault Refusal

end Sys2Proof.Machine
end

