-- ==== Sys2Proof/Machine/Ops.lean ====
section
/-! DEFINITION. The shared operations over the state: memory and the fetch port (spec/20_memory.md), the register file and the
call stack (spec/10_state.md), the program counter (spec/40_control.md R59) and raising a fault (spec/60_exceptions.md R79).
There is no return from a fault: "No instruction returns from a fault" (R81), so none stands beside `State.raise`. -/

namespace Sys2Proof.Machine

/-! ## Encodings of the status port -/

/-- The 2-bit encoding of `status` (R25). -/
def Status.code : Status → BitVec 2
  | .running => 0#2
  | .halted => 1#2
  | .faulted => 2#2

/-- The 3-bit code of `fault_kind` (R27, R71). -/
def FaultKind.code : FaultKind → BitVec 3
  | .none => 0#3
  | .outOfBoundsFetch => 1#3
  | .stackOverflow => 2#3
  | .stackUnderflow => 3#3
  | .unimplementedInstruction => 4#3

/-! ## Memory (R32, R33) -/

/-- The addresses rise strictly from `lo` on, each names a byte that exists (R40), and none holds the byte an unlisted
address reads as. -/
def Memory.wfFrom (lo : Nat) : Memory → Bool
  | [] => true
  | (a, b) :: rest =>
    decide (lo ≤ a) && decide (a < Config.memSize) && decide (b ≠ Config.unloadedByte) && Memory.wfFrom (a + 1) rest

/-- The canonical form: equal memories are equal lists (log 6). -/
def Memory.wf (m : Memory) : Bool := Memory.wfFrom 0 m

/-- The byte listed for a key, or what an unlisted address reads as (R87). -/
def Memory.lookup : Memory → Nat → Byte
  | [], _ => Config.unloadedByte
  | (a, b) :: rest, k => if a = k then b else Memory.lookup rest k

/-- Put a byte at a key, keeping the addresses rising. -/
def Memory.insert (k : Nat) (v : Byte) : Memory → Memory
  | [] => [(k, v)]
  | (a, b) :: rest =>
    if k < a then (k, v) :: (a, b) :: rest
    else if k = a then (k, v) :: rest
    else (a, b) :: Memory.insert k v rest

/-- Take a key out. -/
def Memory.erase (k : Nat) : Memory → Memory
  | [] => []
  | (a, b) :: rest => if a = k then rest else (a, b) :: Memory.erase k rest

/-- `MemRead(a, 1)` on memory: `M[a]` (R33). -/
def Memory.read (m : Memory) (a : Addr) : Byte := m.lookup a.toNat

/-- `M[a] <- b`, by the host in the load phase only (R89). Writing what an unlisted address reads as takes the entry out. -/
def Memory.write (m : Memory) (a : Addr) (b : Byte) : Memory :=
  if b = Config.unloadedByte then m.erase a.toNat else m.insert a.toNat b

/-- The fetch port `imem_rd(a)`: one byte, no side effect (R5, R33). -/
def State.imemRd (s : State) (a : Addr) : Byte := s.M.read a

/-- Memory replaced by one byte's write (R89 `load_mem`). -/
def State.writeM (s : State) (a : Addr) (b : Byte) : State := { s with M := s.M.write a b }

/-! ## Registers (R16, R17) -/

/-- `V[i]` (R12). -/
def State.readV (s : State) (i : RegIx) : Byte := s.V[i.toNat]'i.isLt

/-- `V[i] <- v` (R12). -/
def State.writeV (s : State) (i : RegIx) (v : Byte) : State := { s with V := s.V.set i.toNat v i.isLt }

/-! ## Program counter (R20, R59) -/

/-- `pc <- target` (R12). -/
def State.setPc (s : State) (target : Word) : State := { s with pc := target }

/-- The advance `pc <- a + 2` (R59). After a successful fetch it never wraps. -/
def State.advance (s : State) : State := s.setPc (s.pc + 2#16)

/-- The address `a` of the executing instruction, seen from its handler: "from the advance onward, `pc` holds the address of
the executing instruction plus 2" (R20; log 2). -/
def State.instrAddr (s : State) : Word := s.pc - 2#16

/-! ## Run state -/

/-- `status <- st` (R12). -/
def State.setStatus (s : State) (st : Status) : State := { s with status := st }

/-! ## Call stack (R22, R23) -/

/-- `S[i]` (R12). -/
def State.readS (s : State) (i : Fin 16) : Word := s.S[i.val]'i.isLt

/-- `S[SP] <- ret; SP <- SP + 1`, or nothing where `SP == 16` (R61). -/
def State.pushReturn (s : State) (ret : Word) : Option State :=
  if h : s.SP.val = 16 then none
  else some { s with S := s.S.set s.SP.val ret (by omega), SP := ⟨s.SP.val + 1, by omega⟩ }

/-- `SP <- SP - 1; pc <- S[SP]`, the slot kept as it is, or nothing where `SP == 0` (R62). -/
def State.popReturn (s : State) : Option State :=
  if h : s.SP.val = 0 then none
  else some { s with SP := ⟨s.SP.val - 1, by omega⟩, pc := s.S[s.SP.val - 1]'(by omega) }

/-! ## Fetch (R35, R37) -/

/-- The bound of R37: `a + 1 < 4096`, on unbounded numbers. -/
def fetchable (a : Word) : Bool := decide (a.toNat + 1 < Config.memSize)

/-- `Fetch(a)`: the big-endian word at `a` and `a + 1`, or nothing for Out-of-Bounds Fetch (R35, R37). The bound is checked
first, so both addresses fit 12 bits. -/
def State.fetch (s : State) (a : Word) : Option Word :=
  if fetchable a then
    some (wordOfBytes (s.imemRd (a.setWidth 12)) (s.imemRd ((a + 1#16).setWidth 12)))
  else none

/-! ## Raising a fault (R79) -/

/-- `raise F(addr, word)`: fills the fault record and stops the block; nothing else changes (R79, R80). -/
def State.raise (s : State) (kind : FaultKind) (addr word : Word) : State :=
  { s with faultKind := kind, faultAddr := addr, faultWord := word, status := .faulted }

/-! ## Placing a word -/

/-- A word stored big-endian at `a` and `a + 1`, where the fetch of `a` reads it; nothing where no fetch of `a` can succeed. -/
def State.placeWord (s : State) (a w : Word) : State :=
  if fetchable a then
    (s.writeM (a.setWidth 12) (highByte w)).writeM ((a + 1#16).setWidth 12) (lowByte w)
  else s

end Sys2Proof.Machine
end

