-- ==== Sys2Proof/Machine/Flags.lean ====
section
/-! DEFINITION. The ALU and the one flag (spec/41_arithmetic.md R66, R67; spec/10_state.md R18, R28). -/

namespace Sys2Proof.Machine

/-- The sum `p + q` as the ALU forms it: 9 bits, 0..510, no wrap (R66). -/
def add8Exact (p q : Byte) : Nat := p.toNat + q.toNat

/-- `sum <- s mod 256` (R66). -/
def add8Sum (p q : Byte) : Byte := BitVec.ofNat 8 (add8Exact p q % 256)

/-- `carry <- 1 if s > 255 else 0` (R66). -/
def add8Carry (p q : Byte) : BitVec 1 := if add8Exact p q > 255 then 1#1 else 0#1

/-- `V[0xF] <- carry`: VF is 0 or 1 afterwards (R67, R18). -/
def State.setVF (s : State) (carry : BitVec 1) : State := s.writeV Config.flagReg (carry.setWidth 8)

end Sys2Proof.Machine
end

