-- ==== Sys2Proof/Machine/Operands.lean ====
section
/-! DEFINITION. The operand forms (spec/30_encoding.md R48, R49): a register named by a 4-bit field, and the 12-bit target
address of CALL. There are no others. -/

namespace Sys2Proof.Machine

/-- A register operand read: `V[x]`, for every index, VF among them (R49). -/
def State.regOperand (s : State) (x : RegIx) : Byte := s.readV x

/-- CALL's target: `zext_16(nnn)`, absolute, unsigned, unscaled (R48). -/
def callTarget (nnn : Addr) : Word := nnn.setWidth 16

end Sys2Proof.Machine
end

