-- ==== Sys2Proof/Machine/Arith.lean ====
section
/-! DEFINITION. The arithmetic instruction ADD (spec/41_arithmetic.md R67). It runs after the advance of R59. -/

namespace Sys2Proof.Machine

/-- ADD Vx, Vy (R67): both sources are read before any write; the sum goes to `V[x]`, then the carry to VF, so with
`x = 0xF` the carry is what stays (log 8). -/
def execAdd (x y : RegIx) (s : State) : Result :=
  let p := s.regOperand x
  let q := s.regOperand y
  .next ((s.writeV x (add8Sum p q)).setVF (add8Carry p q))

end Sys2Proof.Machine
end

