-- ==== Sys2Proof/Machine/Control.lean ====
section
/-! DEFINITION. The control instructions HALT, CALL and RET (spec/40_control.md R60, R61, R62). Each runs after the advance of
R59, so `pc` is the address of the instruction plus 2. -/

namespace Sys2Proof.Machine

/-- HALT (R60): `status <- HALTED`; `pc` keeps the advanced value (log 9). -/
def execHalt (s : State) : Result := .next (s.setStatus .halted)

/-- CALL nnn (R61): Stack-Overflow where the stack is full, before any other write; else push the return address and go to
`nnn`. -/
def execCall (nnn : Addr) (s : State) : Result :=
  match s.pushReturn s.pc with
  | none => .next (s.raise .stackOverflow s.instrAddr (encode (.call nnn)))
  | some t => .next (t.setPc (callTarget nnn))

/-- RET (R62): Stack-Underflow where the stack is empty; else pop the return address into `pc`. -/
def execRet (s : State) : Result :=
  match s.popReturn with
  | none => .next (s.raise .stackUnderflow s.instrAddr (encode .ret))
  | some t => .next t

end Sys2Proof.Machine
end

