-- ==== Sys2Proof/Machine/Sequencer.lean ====
section
/-! DEFINITION. The sequencer: what a step does, `Step()` of spec/40_control.md R57, R58, R59. -/

namespace Sys2Proof.Machine

/-- The step once a word `w` has been fetched from `a`: advance, decode, dispatch; an illegal word raises
Unimplemented-Instruction after the advance (R58, R59, R75). -/
def runWord (s : State) (a w : Word) : Result :=
  match decodeWord w with
  | .ok i => exec i s.advance
  | .error _ => .next (s.advance.raise .unimplementedInstruction a w)

/-- The step in RUNNING: fetch, or Out-of-Bounds Fetch before the advance (R58, R72). -/
def runStep (s : State) : Result :=
  match s.fetch s.pc with
  | none => .next (s.raise .outOfBoundsFetch s.pc 0x0000#16)
  | some w => runWord s s.pc w

/-- `Step()`: nothing at all when `status` is not RUNNING (R57), else one instruction or one fault (R58). -/
def sequence (s : State) : Result :=
  match s.status with
  | .running => runStep s
  | .halted => .next s
  | .faulted => .next s

/-- The instruction the next step will dispatch, where there is one (R58). -/
def State.nextInstr (s : State) : Option Instr :=
  match s.fetch s.pc with
  | none => none
  | some w =>
    match decodeWord w with
    | .ok i => some i
    | .error _ => none

end Sys2Proof.Machine
end

