-- ==== Sys2Proof/Machine/Step.lean ====
section
/-! DEFINITION. One step of the machine, and the placing of a word where the next step fetches. -/

namespace Sys2Proof.Machine

/-- One step (spec/40_control.md R57, R58). -/
def step (s : State) : Host.Outcome State Fault Refusal := sequence s

/-- `s` with a word stored where its next step fetches, at `pc`, as the loader would store it (R89; log 12). -/
def State.withFetchWord (s : State) (nbits w : Nat) : State := s.placeWord s.pc (tableWord nbits w)

end Sys2Proof.Machine
end

