-- ==== Sys2Proof/Machine/Run.lean ====
section
/-! DEFINITION. Runs: the repetition of `Step()` (spec/70_reset_and_hazards.md R92, R93). -/

namespace Sys2Proof.Machine

/-- `n` steps, one after another. The host may stop after any of them and go on later; stopping changes no state (R92). -/
def runSteps : Nat → State → Result
  | 0, s => .next s
  | n + 1, s =>
    match step s with
    | .next t => runSteps n t
    | .fault r => .fault r
    | .refused r => .refused r

/-- The source's `run()`: the loop `while status == RUNNING: Step()`, with a budget of `n` passes, which R92 lets the host set.
Unlike `runSteps` it looks at `status` before each step and issues none once the block has stopped. -/
def runLoop : Nat → State → Result
  | 0, s => .next s
  | n + 1, s =>
    match s.status with
    | .running =>
      match step s with
      | .next t => runLoop n t
      | .fault r => .fault r
      | .refused r => .refused r
    | .halted => .next s
    | .faulted => .next s

/-- The next state of an outcome, where there is one. -/
def nextOf : Result → Option State
  | .next t => some t
  | .fault _ => none
  | .refused _ => none

end Sys2Proof.Machine
end

