-- ==== Sys2Proof/Machine/HostPort.lean ====
section
/-! DEFINITION. The host's side of the interface: the control port and the status port (spec/00_scope.md R6, R7), and which
action is allowed in which phase (spec/70_reset_and_hazards.md R89). Every action lands between two steps (R41, R89). -/

namespace Sys2Proof.Machine

/-! ## Control port -/

/-- The phase of the interface: `load` from a reset to the first step, `run` after it (R89). -/
inductive Phase where
  | load
  | run
deriving DecidableEq, Repr

/-- The modelled system's state with the phase of its interface, which R15 and R30 keep out of the state (log 4). -/
structure System where
  state : State
  phase : Phase
deriving DecidableEq, Repr

/-- What the host can do to the system (R6, R89). It has no action that writes `S`, `SP`, `status` or the fault record. -/
inductive HostAction where
  /-- `reset` (R86, R88). -/
  | reset
  /-- `load_reg(i, v)`: `V[i] <- v`. -/
  | loadReg (i : RegIx) (v : Byte)
  /-- `load_pc(v)`: `pc <- v`, any 16-bit `v` (this is how `pc0` is given: R9). -/
  | loadPc (v : Word)
  /-- `load_mem(a, b)`: `M[a] <- b`; `a` must be 0..0xFFF. -/
  | loadMem (a : Nat) (b : Byte)
  /-- `step`. -/
  | step
deriving DecidableEq, Repr

/-- How a host action ends. -/
abbrev HostResult := Host.Outcome System Fault Refusal

/-- The system right after a reset: construction, and a new load phase (R86, R88, R89). -/
def System.afterReset : System := { state := State.reset, phase := .load }

/-- `reset`: in any state and phase (R88, R89). -/
def hostReset (_ : System) : HostResult := .next System.afterReset

/-- `load_reg(i, v)`: written in the load phase, ignored by the block afterwards (R89). -/
def hostLoadReg (i : RegIx) (v : Byte) (sys : System) : HostResult :=
  match sys.phase with
  | .load => .next { sys with state := sys.state.writeV i v }
  | .run => .next sys

/-- `load_pc(v)`: written in the load phase, ignored by the block afterwards (R89). -/
def hostLoadPc (v : Word) (sys : System) : HostResult :=
  match sys.phase with
  | .load => .next { sys with state := sys.state.setPc v }
  | .run => .next sys

/-- `load_mem(a, b)`: written in the load phase; after the first step the host must not (R89), which is refused by name (K10;
log 5); a byte that does not exist is no byte to load (R40; log 5). -/
def hostLoadMem (a : Nat) (b : Byte) (sys : System) : HostResult :=
  match sys.phase with
  | .load =>
    if a < Config.memSize then .next { sys with state := sys.state.writeM (BitVec.ofNat 12 a) b }
    else .fault (.noSuchMemoryByte a)
  | .run => .refused .memoryLoadAfterFirstStep

/-- `step`: one step of the block; it ends the load phase (R89). -/
def hostStep (sys : System) : HostResult :=
  match step sys.state with
  | .next t => .next { state := t, phase := .run }
  | .fault r => .fault r
  | .refused r => .refused r

/-- One host action on the system (R6, R89). -/
def System.act (sys : System) : HostAction → HostResult
  | .reset => hostReset sys
  | .loadReg i v => hostLoadReg i v sys
  | .loadPc v => hostLoadPc v sys
  | .loadMem a b => hostLoadMem a b sys
  | .step => hostStep sys

/-- Host actions in order, stopping at the first that is not allowed. -/
def System.acts (sys : System) : List HostAction → HostResult
  | [] => .next sys
  | a :: rest =>
    match sys.act a with
    | .next sys' => sys'.acts rest
    | .fault r => .fault r
    | .refused r => .refused r

/-! ## Status port -/

/-- What the status port presents of the run state and the fault record (R7). -/
structure StatusPort where
  status : BitVec 2
  faultKind : BitVec 3
  faultAddr : Word
  faultWord : Word
deriving DecidableEq, Repr

/-- The status port (R7, R25, R27). -/
def State.statusPort (s : State) : StatusPort where
  status := s.status.code
  faultKind := s.faultKind.code
  faultAddr := s.faultAddr
  faultWord := s.faultWord

/-- The read access to `SP`: 5 bits (R7, R23). -/
def State.spPort (s : State) : BitVec 5 := BitVec.ofNat 5 s.SP.val

/-- The rest of what the host reads between steps: the registers, the pc, the stack slots, the stack pointer and memory, in the
load phase and in the run phase alike, after a fault or a HALT too (R7, R82, R89, R98). -/
structure ReadOut where
  V : Vector Byte 16
  pc : Word
  S : Vector Word 16
  SP : BitVec 5
  M : Memory
deriving DecidableEq, Repr

/-- What the host reads of the block and of memory, besides the status port (R7, R82, R89). -/
def State.readOut (s : State) : ReadOut where
  V := s.V
  pc := s.pc
  S := s.S
  SP := s.spPort
  M := s.M

/-- One byte of memory, as the host reads it: every address 0x000 to 0xFFF (R32, R82, R89). -/
def ReadOut.byteAt (r : ReadOut) (a : Addr) : Byte := r.M.read a

/-- The status port of the system: readable between steps in either phase (R89). -/
def System.statusPort (sys : System) : StatusPort := sys.state.statusPort

/-- The read-out of the system: readable between steps in either phase (R89). -/
def System.readOut (sys : System) : ReadOut := sys.state.readOut

end Sys2Proof.Machine
end

