-- ==== Sys2Proof/Safety.lean ====
section
/-! DEFINITION. The terms the claims about safe runs use: which steps fault (spec/60_exceptions.md R70 to R77),
when a run is over (spec/70_reset_and_hazards.md R93), and the invariant every step keeps (spec/10_state.md R21, R27). -/

namespace Sys2Proof.Machine

/-- The run is over: `status` is HALTED or FAULTED (R93). -/
abbrev State.stopped (s : State) : Prop := s.status ≠ .running

/-- The fault conditions of a step in RUNNING, each only where the one before it does not hold: the fetch bound, the opcode
match, the stack check of CALL or RET (R72 to R75, R77). -/
def State.stepFaults (s : State) : Prop :=
  s.pc.toNat + 1 ≥ 4096 ∨
  (s.pc.toNat + 1 < 4096 ∧ s.nextInstr = none) ∨
  (∃ nnn, s.nextInstr = some (.call nnn) ∧ s.SP.val = 16) ∨
  (s.nextInstr = some .ret ∧ s.SP.val = 0)

/-- The fault record is all 0 unless the block is FAULTED, and names a fault when it is (R27). -/
def State.recordConsistent (s : State) : Prop :=
  (s.status = .faulted → s.faultKind ≠ .none) ∧
  (s.status ≠ .faulted → s.faultKind = .none ∧ s.faultAddr = 0x0000#16 ∧ s.faultWord = 0x0000#16)

/-- Every live slot holds an address a CALL can push: at most 0x1000 (R21, R23, R72). -/
def State.liveReturnsBounded (s : State) : Prop :=
  ∀ i : Fin 16, i.val < s.SP.val → (s.readS i).toNat ≤ 0x1000

/-- The invariant of the machine: memory canonical, the record consistent, the live slots bounded. -/
def State.Inv (s : State) : Prop :=
  s.M.wf = true ∧ s.recordConsistent ∧ s.liveReturnsBounded

end Sys2Proof.Machine
end

