-- ==== Sys2Proof/Certificates/Slice0/Obligations.lean ====
section
/-! DEFINITION. The statements for the provers, from the numbered rules of spec/. A docstring names the rule, and where a clause
rests on one of the spec's own decisions (`Dn`) it names that decision and the row of the log. -/

open Sys2Proof Sys2Proof.Machine

/-! ## Encoding and decode (spec/30_encoding.md) -/

/-- R47: the fields of a word are its bit slices, on all 65536 words. -/
def Obligations.FieldsAreTheBitSlices : Prop :=
  ∀ w : Word,
    (splitFields w).o.toNat = (w.toNat >>> 12) &&& 0xF ∧
    (splitFields w).x.toNat = (w.toNat >>> 8) &&& 0xF ∧
    (splitFields w).y.toNat = (w.toNat >>> 4) &&& 0xF ∧
    (splitFields w).d.toNat = w.toNat &&& 0xF ∧
    (splitFields w).nnn.toNat = w.toNat &&& 0xFFF

/-- Words written out bit by bit from the patterns of R51 decode to the instructions they stand for, and neighbours of theirs
(vectors F11 to F17 of spec/95_test_vectors.md) to none. -/
def Obligations.SampleWordsDecodeAsTheTableSays : Prop :=
  decodeWord 0b0000000000000000#16 = .ok .halt ∧
  decodeWord 0b0000000011101110#16 = .ok .ret ∧
  decodeWord 0b0010000100000000#16 = .ok (.call 0x100#12) ∧
  decodeWord 0b0010111111111111#16 = .ok (.call 0xFFF#12) ∧
  decodeWord 0b1000000000010100#16 = .ok (.add 0x0#4 0x1#4) ∧
  decodeWord 0b1000111111100100#16 = .ok (.add 0xF#4 0xE#4) ∧
  decodeWord 0x00E0#16 = .error .family0 ∧
  decodeWord 0x0100#16 = .error .family0 ∧
  decodeWord 0x1234#16 = .error .family1 ∧
  decodeWord 0x3000#16 = .error .families3to7 ∧
  decodeWord 0x8015#16 = .error .family8Variant ∧
  decodeWord 0xFFFF#16 = .error .families9toF

/-- R50: the four rows are disjoint, a word is an instruction exactly when it matches a row, and then an instruction of that
row; HALT and RET fix all 16 bits and have neither family 0x2 nor 0x8. -/
def Obligations.OpcodeRowsAreDisjointAndDecideEveryWord : Prop :=
  (∀ (w : Word) (r r' : OpcodeRow), r ∈ opcodeRows → r' ∈ opcodeRows →
    w &&& r.mask = r.pattern → w &&& r'.mask = r'.pattern → r = r') ∧
  (∀ (w : Word) (i : Instr), decodeWord w = .ok i → i.row ∈ opcodeRows ∧ w &&& i.row.mask = i.row.pattern) ∧
  (∀ w : Word, (∃ c, decodeWord w = .error c) ↔ ∀ r ∈ opcodeRows, w &&& r.mask ≠ r.pattern) ∧
  haltRow.mask = 0xFFFF#16 ∧ retRow.mask = 0xFFFF#16 ∧
  (splitFields haltRow.pattern).o ≠ 0x2#4 ∧ (splitFields haltRow.pattern).o ≠ 0x8#4 ∧
  (splitFields retRow.pattern).o ≠ 0x2#4 ∧ (splitFields retRow.pattern).o ≠ 0x8#4

/-- Decode of encode is the instruction itself, with every operand at every value, from a word and from bytes followed by any
others (R46, R51, R54). -/
def Obligations.DecodeOfEncodeIsTheInstruction : Prop :=
  ∀ i : Instr, i.wellFormed = true →
    decodeWord (encode i) = .ok i ∧ ∀ rest : List Byte, decodeBytes (encodeBytes i ++ rest) = .ok (i, rest)

/-- Each legal word has one meaning: encode of what it decodes to is the word itself (R50, R51). So the word a handler records
in the fault record is the fetched one (log 2). -/
def Obligations.EncodeOfDecodeIsTheWord : Prop :=
  ∀ (w : Word) (i : Instr), decodeWord w = .ok i → encode i = w

/-- The class table of R52: which words are illegal, each class by its ranges of words. -/
def Obligations.IllegalWordsAreTheFiveClasses : Prop :=
  ∀ w : Word,
    (decodeWord w = .error .family0 ↔
      (0x0001 ≤ w.toNat ∧ w.toNat ≤ 0x00ED) ∨ (0x00EF ≤ w.toNat ∧ w.toNat ≤ 0x0FFF)) ∧
    (decodeWord w = .error .family1 ↔ 0x1000 ≤ w.toNat ∧ w.toNat ≤ 0x1FFF) ∧
    (decodeWord w = .error .families3to7 ↔ 0x3000 ≤ w.toNat ∧ w.toNat ≤ 0x7FFF) ∧
    (decodeWord w = .error .family8Variant ↔ 0x8000 ≤ w.toNat ∧ w.toNat ≤ 0x8FFF ∧ w.toNat % 16 ≠ 4) ∧
    (decodeWord w = .error .families9toF ↔ 0x9000 ≤ w.toNat)

/-- R55 (the spec's decision D17): numbers within the bounds assemble to the words the rule gives, numbers beyond them to
nothing, and every instruction is assembled from its own operands. -/
def Obligations.AssemblyIsBoundedAndEncodesAsStated : Prop :=
  (∀ addr : Nat, addr ≤ 4095 →
    ∃ i, (Asm.call addr).assemble = some i ∧ (encode i).toNat = 0x2000 ||| addr) ∧
  (∀ x y : Nat, x ≤ 15 → y ≤ 15 →
    ∃ i, (Asm.add x y).assemble = some i ∧ (encode i).toNat = 0x8004 ||| (x <<< 8) ||| (y <<< 4)) ∧
  (∃ i, Asm.halt.assemble = some i ∧ encode i = 0x0000#16) ∧
  (∃ i, Asm.ret.assemble = some i ∧ encode i = 0x00EE#16) ∧
  (∀ p : Asm, p.wellFormed = false → p.assemble = none) ∧
  (∀ i : Instr, i.toAsm.assemble = some i)

/-! ## Fetch (spec/20_memory.md) -/

/-- R35, R37, R38: at every address up to 0x0FFE, odd or even (R36), the fetch gives the byte at `a` as the high byte and the
byte at `a + 1` as the low byte; from 0x0FFF on it fails. The failing fetch's order of check and reads (D20) cannot be seen. -/
def Obligations.FetchReadsTwoBytesHighFirst : Prop :=
  ∀ (s : State) (a : Word),
    (a.toNat + 1 < 4096 → ∃ w, s.fetch a = some w ∧
      w.toNat = (s.imemRd (BitVec.ofNat 12 a.toNat)).toNat * 256 + (s.imemRd (BitVec.ofNat 12 (a.toNat + 1))).toNat) ∧
    (a.toNat + 1 ≥ 4096 → s.fetch a = none)

/-! ## The step (spec/40_control.md section 1) -/

/-- R58, its first branch R57 (that FAULTED is a stopped state too is the spec's decision D5): the step, branch by branch. When the two bytes at the program counter decode to an instruction, the step is
that instruction's handler after the advance. -/
def Obligations.StepRunsTheDecodedInstruction : Prop :=
  ∀ s : State,
    (s.status ≠ .running → step s = .next s) ∧
    (s.status = .running → s.pc.toNat + 1 ≥ 4096 →
      step s = .next (s.raise .outOfBoundsFetch s.pc 0x0000#16)) ∧
    (∀ (hi lo : Byte), s.status = .running → s.pc.toNat + 1 < 4096 →
      s.imemRd (BitVec.ofNat 12 s.pc.toNat) = hi → s.imemRd (BitVec.ofNat 12 (s.pc.toNat + 1)) = lo →
      (∀ i : Instr, i.wellFormed = true → decodeBytes [hi, lo] = .ok (i, []) →
        step s = exec i { s with pc := s.pc + 2#16 }) ∧
      (∀ w c, decodeBytes [hi, lo] = .error (.illegalWord w c) →
        step s = .next (State.raise { s with pc := s.pc + 2#16 } .unimplementedInstruction s.pc w)))

/-- R59: the advance comes in every step whose fetch succeeds, before the dispatch, an illegal word's too; its sum never wraps;
a step whose fetch fails leaves `pc` unchanged. -/
def Obligations.AdvanceComesBeforeDispatchAndNeverWraps : Prop :=
  ∀ s : State, s.status = .running →
    (∀ w, s.fetch s.pc = some w →
      (s.pc + 2#16).toNat = s.pc.toNat + 2 ∧ s.pc.toNat + 2 ≤ 0x1000 ∧
      (∀ i, decodeWord w = .ok i → step s = exec i { s with pc := s.pc + 2#16 }) ∧
      (∀ c, decodeWord w = .error c → ∃ t, step s = .next t ∧ t.pc = s.pc + 2#16)) ∧
    (s.fetch s.pc = none → ∃ t, step s = .next t ∧ t.pc = s.pc)

/-- From every state a step goes on to a next state: an instruction's effect, or one of the four faults of the block, which
stop it in FAULTED (R57, R58, R79; log 3). -/
def Obligations.EveryStepAnswersNext : Prop :=
  ∀ s : State, ∃ t, step s = .next t

/-- R26: what changes `status`, and how. The fault conditions are `State.stepFaults`. -/
def Obligations.StatusChangesOnlyAsStated : Prop :=
  (∀ sys : System, ∃ sys', sys.act .reset = .next sys' ∧ sys'.state.status = .running) ∧
  (∀ s t : State, step s = .next t →
    (s.status = .running → s.nextInstr = some .halt → t.status = .halted) ∧
    (s.status = .running → s.stepFaults → t.status = .faulted) ∧
    (s.status = .running → s.nextInstr ≠ some .halt → ¬ s.stepFaults → t.status = .running) ∧
    (s.status = .halted → t.status = .halted) ∧
    (s.status = .faulted → t.status = .faulted)) ∧
  (∀ (sys sys' : System) (act : HostAction), act ≠ .reset → sys.state.status ≠ .running →
    sys.act act = .next sys' → sys'.state.status = sys.state.status)

/-- R63: the only three things that change `pc` in a step. -/
def Obligations.OnlyAdvanceCallAndRetChangePc : Prop :=
  ∀ s t : State, step s = .next t → t.pc ≠ s.pc →
    t.pc = s.pc + 2#16 ∨
    (∃ nnn, s.nextInstr = some (.call nnn) ∧ s.SP.val < 16 ∧ t.pc.toNat = nnn.toNat) ∨
    (s.nextInstr = some .ret ∧ ∃ k : Fin 16, k.val + 1 = s.SP.val ∧ t.pc = s.readS k)

/-- R83: a run ends by HALT, which leaves the fault record as it is (0 where it was 0), or by a fault. -/
def Obligations.RunEndsOnlyByHaltOrFault : Prop :=
  ∀ s t : State, s.status = .running → step s = .next t → t.status ≠ .running →
    (s.nextInstr = some .halt ∧ t.status = .halted ∧
      t.faultKind = s.faultKind ∧ t.faultAddr = s.faultAddr ∧ t.faultWord = s.faultWord) ∨
    (s.stepFaults ∧ t.status = .faulted ∧ t.faultKind ≠ .none)

/-- R57 over any number of steps: a stopped block stays exactly as it is. That FAULTED is such a state is the spec's decision
D5. -/
def Obligations.StoppedBlockNeverChanges : Prop :=
  ∀ (n : Nat) (s : State), s.status ≠ .running → runSteps n s = .next s

/-! ## HALT, CALL, RET (spec/40_control.md) -/

/-- HALT completes in every state: `status <- HALTED` and nothing else, `pc` keeping the advanced value; so its step, from a
running state whose `pc` is `a`, gives HALTED and `pc = a + 2` with every other part as before. That `pc` is the spec's decision
D9 (log 9). -/
def Obligations.HaltCompletesChangingOnlyStatus : Prop :=
  ∀ s : State,
    exec .halt s = .next { s with status := .halted } ∧
    (s.status = .running → s.nextInstr = some .halt →
      step s = .next { s with status := .halted, pc := s.pc + 2#16 } ∧ (s.pc + 2#16).toNat = s.pc.toNat + 2)

/-- R61: CALL on a stack that is not full completes: it pushes `a + 2`, goes to `zext_16(nnn)`, and writes nothing else; on a
full stack it raises Stack-Overflow with nothing of the handler written and `pc` holding `a + 2`. Its encoding is 0x2nnn. -/
def Obligations.CallPushesReturnAddressAndJumps : Prop :=
  ∀ (nnn : Addr) (s : State) (a w : Word), s.pc = a + 2#16 → w = encode (.call nnn) →
    (w.toNat = 0x2000 + nnn.toNat ∧ w &&& 0xF000#16 = 0x2000#16) ∧
    (∀ h : s.SP.val < 16,
      exec (.call nnn) s = .next { s with
        S := s.S.set s.SP.val (a + 2#16) h
        SP := ⟨s.SP.val + 1, by omega⟩
        pc := BitVec.ofNat 16 nnn.toNat }) ∧
    (s.SP.val = 16 →
      exec (.call nnn) s = .next { s with
        faultKind := .stackOverflow, faultAddr := a, faultWord := w, status := .faulted })

/-- R48: CALL's target is `nnn` used unsigned and unscaled, zero-extended: the new `pc` is `nnn` itself, at most 0x0FFF, wherever
the CALL stands. -/
def Obligations.CallTargetIsAbsoluteAndZeroExtended : Prop :=
  ∀ (nnn : Addr) (s : State), s.SP.val < 16 →
    ∃ t, exec (.call nnn) s = .next t ∧ t.pc.toNat = nnn.toNat ∧ t.pc.toNat ≤ 0x0FFF

/-- RET on a stack that is not empty completes: it pops the newest slot into `pc` as it is and writes nothing else; the slot
is not cleared (the spec's decision D11; log 11). -/
def Obligations.RetPopsTheNewestReturnAddress : Prop :=
  ∀ (s : State) (k : Fin 16), s.SP.val = k.val + 1 →
    exec .ret s = .next { s with SP := ⟨k.val, by omega⟩, pc := s.readS k }

/-- R74 with R62: RET on an empty stack raises Stack-Underflow, with `fault_addr` the address of the RET and `fault_word` 0x00EE,
and none of its own effect. -/
def Obligations.RetOnEmptyStackUnderflows : Prop :=
  ∀ (s : State) (a : Word), s.pc = a + 2#16 → s.SP.val = 0 →
    exec .ret s = .next { s with
      faultKind := .stackUnderflow, faultAddr := a, faultWord := 0x00EE#16, status := .faulted }

/-- R73: Stack-Overflow is raised by the step of a CALL with `SP == 16`, recording the CALL's address and the fetched word; with
`SP` below 16 the same step raises nothing. -/
def Obligations.StackOverflowRecordsTheCall : Prop :=
  ∀ (s : State) (w : Word) (nnn : Addr), s.status = .running → s.fetch s.pc = some w → decodeWord w = .ok (.call nnn) →
    (s.SP.val = 16 → ∃ t, step s = .next t ∧ t.status = .faulted ∧ t.faultKind = .stackOverflow ∧
      t.faultAddr = s.pc ∧ t.faultWord = w) ∧
    (s.SP.val < 16 → ∃ t, step s = .next t ∧ t.status = .running)

/-- R74: Stack-Underflow is raised by the step of a RET with `SP == 0`, recording the RET's address and 0x00EE; with `SP` above 0
the same step raises nothing. -/
def Obligations.StackUnderflowRecordsTheRet : Prop :=
  ∀ s : State, s.status = .running → s.nextInstr = some .ret →
    (s.SP.val = 0 → ∃ t, step s = .next t ∧ t.status = .faulted ∧ t.faultKind = .stackUnderflow ∧
      t.faultAddr = s.pc ∧ t.faultWord = 0x00EE#16) ∧
    (0 < s.SP.val → ∃ t, step s = .next t ∧ t.status = .running)

/-- What HALT, CALL and RET leave unchanged: every register and every byte of memory, always; the slots but for the one CALL
pushes to; `SP` but for the one CALL adds and the one RET takes; `status` but for HALT; the fault record. Where the stack check
of CALL or RET fails instead, the stack and `pc` are unchanged too. Three of these clauses are the spec's own decisions: that RET
keeps the slot it pops (D11, log 11), that HALT keeps `pc` (D9, log 9), and that a stack fault keeps `pc` (D8, log 10). -/
def Obligations.ControlInstructionsFrame : Prop :=
  ∀ (i : Instr) (s t : State), (i = .halt ∨ i = .ret ∨ ∃ nnn, i = .call nnn) → exec i s = .next t →
    (∀ r : RegIx, t.readV r = s.readV r) ∧
    (∀ b : Addr, t.imemRd b = s.imemRd b) ∧
    (i = .halt ∨ (i = .ret ∧ s.SP.val ≠ 0) ∨ ((∃ nnn, i = .call nnn) ∧ s.SP.val ≠ 16) →
      t.faultKind = s.faultKind ∧ t.faultAddr = s.faultAddr ∧ t.faultWord = s.faultWord ∧
      (i ≠ .halt → t.status = s.status) ∧
      (i = .halt → t.pc = s.pc ∧ t.SP = s.SP) ∧
      (i = .ret → t.SP.val + 1 = s.SP.val) ∧
      (∀ nnn, i = .call nnn → t.SP.val = s.SP.val + 1) ∧
      (∀ j : Fin 16, (∀ nnn, i = .call nnn → j.val ≠ s.SP.val) → t.readS j = s.readS j)) ∧
    ((i = .ret ∧ s.SP.val = 0) ∨ ((∃ nnn, i = .call nnn) ∧ s.SP.val = 16) →
      t.pc = s.pc ∧ t.SP = s.SP ∧ ∀ j : Fin 16, t.readS j = s.readS j)

/-! ## ADD (spec/41_arithmetic.md) -/

/-- R66: the ALU's sum and carry, on all 65536 pairs; it takes no carry in. -/
def Obligations.AluAddsModulo256WithCarryOut : Prop :=
  ∀ p q : Byte,
    (add8Sum p q).toNat = (p.toNat + q.toNat) % 256 ∧
    (add8Carry p q).toNat = (if p.toNat + q.toNat > 255 then 1 else 0)

/-- ADD completes in every state; with a destination other than VF, `V[x]` is the sum modulo 256 and VF the carry, from the
values both registers had before, and nothing else changes (R67, whose clause for `x = 0xF` is the next statement). -/
def Obligations.AddWritesSumThenCarry : Prop :=
  ∀ (x y : RegIx) (s : State), x ≠ 0xF#4 →
    ∃ t, exec (.add x y) s = .next t ∧
      (t.readV x).toNat = ((s.readV x).toNat + (s.readV y).toNat) % 256 ∧
      (t.readV 0xF#4).toNat = (if (s.readV x).toNat + (s.readV y).toNat > 255 then 1 else 0) ∧
      (∀ r : RegIx, r ≠ x → r ≠ 0xF#4 → t.readV r = s.readV r) ∧
      t = { s with V := t.V }

/-- ADD into VF completes too: the carry is what VF holds afterwards, the sum is lost, and no other register changes. The spec's
decision D10 (log 8); the source calls general-purpose use of register 0xF undefined. -/
def Obligations.AddIntoVFKeepsTheCarry : Prop :=
  ∀ (y : RegIx) (s : State),
    ∃ t, exec (.add 0xF#4 y) s = .next t ∧
      (t.readV 0xF#4).toNat = (if (s.readV 0xF#4).toNat + (s.readV y).toNat > 255 then 1 else 0) ∧
      (∀ r : RegIx, r ≠ 0xF#4 → t.readV r = s.readV r) ∧
      t = { s with V := t.V }

/-- R68: the carry is exact, `V[x]_new + 256 * VF_new = V[x]_old + V[y]_old` whenever `x` is not VF; with `y = x` the register
doubles (R67). -/
def Obligations.AddCarryIsExact : Prop :=
  ∀ (x y : RegIx) (s t : State), x ≠ 0xF#4 → exec (.add x y) s = .next t →
    (t.readV x).toNat + 256 * (t.readV 0xF#4).toNat = (s.readV x).toNat + (s.readV y).toNat ∧
    (x = y → (t.readV x).toNat = (2 * (s.readV x).toNat) % 256 ∧
      ((t.readV 0xF#4).toNat = 1 ↔ (s.readV x).toNat ≥ 128))

/-- What ADD leaves unchanged: every register but `V[x]` and VF, the pc the advance left, stack, run state, fault record and
every byte of memory (R67 "State written"). -/
def Obligations.AddFrame : Prop :=
  ∀ (x y : RegIx) (s t : State), exec (.add x y) s = .next t →
    (∀ r : RegIx, r ≠ x → r ≠ 0xF#4 → t.readV r = s.readV r) ∧
    t.pc = s.pc ∧ t.SP = s.SP ∧ (∀ j : Fin 16, t.readS j = s.readS j) ∧
    t.status = s.status ∧ t.faultKind = s.faultKind ∧ t.faultAddr = s.faultAddr ∧ t.faultWord = s.faultWord ∧
    (∀ b : Addr, t.imemRd b = s.imemRd b)

/-- R18, over any run: from the moment an ADD has executed, VF holds 0 or 1, since only ADD writes it. -/
def Obligations.VFIsZeroOrOneOnceAnAddHasRun : Prop :=
  (∀ (x y : RegIx) (s t : State), exec (.add x y) s = .next t → t.readV 0xF#4 = 0#8 ∨ t.readV 0xF#4 = 1#8) ∧
  (∀ (n : Nat) (s t : State), (s.readV 0xF#4 = 0#8 ∨ s.readV 0xF#4 = 1#8) → runSteps n s = .next t →
    t.readV 0xF#4 = 0#8 ∨ t.readV 0xF#4 = 1#8)

/-! ## Faults (spec/60_exceptions.md) -/

/-- R72: a step in RUNNING with `pc` at 0x0FFF or above raises Out-of-Bounds Fetch before the advance, recording that `pc` and
the word 0x0000; nothing else changes, whatever the stack holds (R77). -/
def Obligations.FetchOutsideMemoryFaultsBeforeTheAdvance : Prop :=
  ∀ s : State, s.status = .running → s.pc.toNat ≥ 0x0FFF →
    step s = .next { s with
      status := .faulted, faultKind := .outOfBoundsFetch, faultAddr := s.pc, faultWord := 0x0000#16 }

/-- R75: a step whose fetched word matches no row raises Unimplemented-Instruction after the advance, recording the word and its
address; no register, slot or byte of memory changes. -/
def Obligations.IllegalWordRaisesUnimplementedInstruction : Prop :=
  ∀ (s : State) (w : Word), s.status = .running → s.fetch s.pc = some w →
    (∀ r ∈ opcodeRows, w &&& r.mask ≠ r.pattern) →
    step s = .next { s with
      status := .faulted, faultKind := .unimplementedInstruction, faultAddr := s.pc, faultWord := w, pc := s.pc + 2#16 }

/-- The kind recorded tells which check failed first: the fetch bound, the opcode match, then the stack check (R71 to R77). The
codes' names and the record are the spec's decisions D5 to D7. -/
def Obligations.FaultKindTellsTheFailingCheck : Prop :=
  ∀ s t : State, s.status = .running → s.faultKind = .none → step s = .next t →
    (t.faultKind = .outOfBoundsFetch ↔ s.pc.toNat + 1 ≥ 4096) ∧
    (t.faultKind = .unimplementedInstruction ↔ s.pc.toNat + 1 < 4096 ∧ s.nextInstr = none) ∧
    (t.faultKind = .stackOverflow ↔ (∃ nnn, s.nextInstr = some (.call nnn)) ∧ s.SP.val = 16) ∧
    (t.faultKind = .stackUnderflow ↔ s.nextInstr = some .ret ∧ s.SP.val = 0)

/-- R80 (post-fault `pc` is the spec's decision D8; log 10): the faulting step changes nothing but `pc`, by the advance where
the fetch succeeded, and the record and status; `fault_addr` is the instruction's own address. -/
def Obligations.FaultsArePrecise : Prop :=
  ∀ s t : State, s.status = .running → step s = .next t → t.status = .faulted →
    t.V = s.V ∧ t.S = s.S ∧ t.SP = s.SP ∧ t.M = s.M ∧ t.faultAddr = s.pc ∧
    (t.faultKind = .outOfBoundsFetch → t.pc = s.pc ∧ t.faultWord = 0x0000#16) ∧
    (t.faultKind ≠ .outOfBoundsFetch → t.pc = s.pc + 2#16 ∧ s.fetch s.pc = some t.faultWord)

/-- R82: how a fault reaches the host. When the host's step faults, the status port shows FAULTED (2), a kind that is not 0 and the
address of the faulting instruction, and the host reads the registers, the stack and every byte of memory as the fault left them:
the values they had before it (R80; the spec's decision D8, log 10). The block does nothing further by itself: another step
shows the host the same. The record and the encodings are the spec's decisions D5 to D7. -/
def Obligations.HostReadsWhatTheFaultLeft : Prop :=
  ∀ sys sys' : System, sys.state.status = .running → sys.act .step = .next sys' → sys'.state.status = .faulted →
    sys'.statusPort.status = 2#2 ∧ sys'.statusPort.faultKind ≠ 0#3 ∧ sys'.statusPort.faultAddr = sys.state.pc ∧
    sys'.readOut.V = sys.readOut.V ∧ sys'.readOut.S = sys.readOut.S ∧ sys'.readOut.SP = sys.readOut.SP ∧
    (∀ a : Addr, sys'.readOut.byteAt a = sys.readOut.byteAt a) ∧
    (∀ sys'', sys'.act .step = .next sys'' → sys''.statusPort = sys'.statusPort ∧ sys''.readOut = sys'.readOut)

/-- R7, R89: between steps the host can read all there is. Two states that the status port and the read-out show alike are the
same state, and two canonical memories that read alike byte by byte are the same memory (log 6). -/
def Obligations.HostReadsTheWholeState : Prop :=
  (∀ s t : State, s.statusPort = t.statusPort → s.readOut = t.readOut → s = t) ∧
  (∀ s t : State, s.Inv → t.Inv → (∀ a : Addr, s.readOut.byteAt a = t.readOut.byteAt a) → s.readOut.M = t.readOut.M)

/-- R81: FAULTED is terminal for steps and for every action of the host but `reset`, which starts afresh. -/
def Obligations.FaultIsTerminalUntilReset : Prop :=
  ∀ sys : System, sys.state.status = .faulted →
    step sys.state = .next sys.state ∧
    (∀ (acts : List HostAction) (sys' : System), HostAction.reset ∉ acts → sys.acts acts = .next sys' →
      sys'.state.status = .faulted ∧ sys'.state.faultKind = sys.state.faultKind ∧
      sys'.state.faultAddr = sys.state.faultAddr ∧ sys'.state.faultWord = sys.state.faultWord) ∧
    sys.act .reset = .next System.afterReset

/-- The status port's encodings (the spec's decisions D5, D6): RUNNING 0, HALTED 1, FAULTED 2; fault codes 0 to 4; no other value
is ever presented, and `SP` reads as its number, at most 16 (R23, R25, R27). -/
def Obligations.StatusPortShowsTheStatedEncodings : Prop :=
  ∀ s : State,
    (s.statusPort.status = 0#2 ↔ s.status = .running) ∧ (s.statusPort.status = 1#2 ↔ s.status = .halted) ∧
    (s.statusPort.status = 2#2 ↔ s.status = .faulted) ∧ s.statusPort.status ≠ 3#2 ∧
    (s.statusPort.faultKind = 0#3 ↔ s.faultKind = .none) ∧
    (s.statusPort.faultKind = 1#3 ↔ s.faultKind = .outOfBoundsFetch) ∧
    (s.statusPort.faultKind = 2#3 ↔ s.faultKind = .stackOverflow) ∧
    (s.statusPort.faultKind = 3#3 ↔ s.faultKind = .stackUnderflow) ∧
    (s.statusPort.faultKind = 4#3 ↔ s.faultKind = .unimplementedInstruction) ∧
    s.statusPort.faultKind.toNat ≤ 4 ∧
    s.statusPort.faultAddr = s.faultAddr ∧ s.statusPort.faultWord = s.faultWord ∧
    s.readOut.SP.toNat = s.SP.val ∧ s.readOut.SP.toNat ≤ 16

/-! ## Reset and the host (spec/70_reset_and_hazards.md) -/

/-- R87, R88: `reset`, applied in any state, gives every piece of the block its value, every byte of memory 0x00, and so the word
0x0000, HALT, at every address a fetch can read. -/
def Obligations.ResetSetsEveryPieceOfState : Prop :=
  ∀ sys : System, ∃ s : State, sys.act .reset = .next { state := s, phase := .load } ∧ s = State.reset ∧
    (∀ r : RegIx, s.readV r = 0x00#8) ∧ s.pc = 0x0000#16 ∧ (∀ j : Fin 16, s.readS j = 0x0000#16) ∧ s.SP.val = 0 ∧
    s.status = .running ∧ s.faultKind = .none ∧ s.faultAddr = 0x0000#16 ∧ s.faultWord = 0x0000#16 ∧
    (∀ a : Addr, s.imemRd a = 0x00#8) ∧
    (∀ a : Word, a.toNat + 1 < 4096 → s.fetch a = some 0x0000#16 ∧ decodeWord 0x0000#16 = .ok .halt)

/-- R89, load phase: each load writes its own place and nothing else, a later load over an earlier one; a byte outside
0..0xFFF is no byte to load (log 5); `step` ends the phase. -/
def Obligations.LoadsWriteOnlyTheirPlaceInTheLoadPhase : Prop :=
  ∀ s : State,
    (∀ (i : RegIx) (v : Byte), ∃ t, System.act { state := s, phase := .load } (.loadReg i v) = .next { state := t, phase := .load } ∧
      t.readV i = v ∧ (∀ j, j ≠ i → t.readV j = s.readV j) ∧ t = { s with V := t.V }) ∧
    (∀ v : Word, System.act { state := s, phase := .load } (.loadPc v) = .next { state := { s with pc := v }, phase := .load }) ∧
    (∀ (a : Addr) (b : Byte), ∃ t,
      System.act { state := s, phase := .load } (.loadMem a.toNat b) = .next { state := t, phase := .load } ∧
      (s.M.wf = true → t.imemRd a = b ∧ (∀ c, c ≠ a → t.imemRd c = s.imemRd c) ∧ t.M.wf = true) ∧ t = { s with M := t.M }) ∧
    (∀ (a : Nat) (b : Byte), a ≥ 4096 →
      System.act { state := s, phase := .load } (.loadMem a b) = .fault (.noSuchMemoryByte a)) ∧
    (∀ sys', System.act { state := s, phase := .load } .step = .next sys' → sys'.phase = .run)

/-- R89, after the first step (the spec's decision D12): register and pc loads are ignored, a memory load is refused (K10;
log 5), and steps keep the phase. -/
def Obligations.LoadsAfterTheFirstStepChangeNothing : Prop :=
  ∀ s : State,
    (∀ (i : RegIx) (v : Byte),
      System.act { state := s, phase := .run } (.loadReg i v) = .next { state := s, phase := .run }) ∧
    (∀ v : Word, System.act { state := s, phase := .run } (.loadPc v) = .next { state := s, phase := .run }) ∧
    (∀ (a : Nat) (b : Byte),
      System.act { state := s, phase := .run } (.loadMem a b) = .refused .memoryLoadAfterFirstStep) ∧
    (∀ sys', System.act { state := s, phase := .run } .step = .next sys' → sys'.phase = .run ∧ step s = .next sys'.state)

/-- R44, R34: no run of steps changes memory, so every fetch of an address gives the same answer all along (decisions D12,
D14). -/
def Obligations.NoRunChangesMemory : Prop :=
  ∀ (n : Nat) (s t : State), runSteps n s = .next t →
    t.M = s.M ∧ (∀ b : Addr, t.imemRd b = s.imemRd b) ∧ (∀ a : Word, t.fetch a = s.fetch a)

/-- R92 (the spec's decision D19): the source's `run()`, the loop `while status == RUNNING: Step()` under any budget, ends where
as many plain steps end, since a stopped block does nothing; once it has stopped, a larger budget changes nothing; and the host,
with whatever ignored loads it makes between its steps after the first (R89, D12), goes through the states of that same run, one
step of it for each `step` it issues. -/
def Obligations.PausingARunChangesNothing : Prop :=
  (∀ (n : Nat) (s : State), runLoop n s = runSteps n s) ∧
  (∀ (m n : Nat) (s t : State), runLoop n s = .next t → t.status ≠ .running → runLoop (n + m) s = .next t) ∧
  (∀ (acts : List HostAction) (s : State),
    (∀ act ∈ acts, act = .step ∨ (∃ i v, act = .loadReg i v) ∨ ∃ v, act = .loadPc v) →
    ∃ t, runSteps (acts.count .step) s = .next t ∧
      System.acts { state := s, phase := .run } acts = .next { state := t, phase := .run })

/-! ## Invariants -/

/-- The state after reset meets the invariant. -/
def Obligations.ResetMeetsTheInvariant : Prop := State.reset.Inv

/-- Every step keeps the invariant: memory canonical, the fault record 0 exactly while the block is not FAULTED (R27; decision
D5), every live slot at most 0x1000 (R21, R72). -/
def Obligations.EveryStepKeepsTheInvariant : Prop :=
  ∀ s t : State, s.Inv → step s = .next t → t.Inv

/-- Every host action that goes on keeps the invariant too (R89). -/
def Obligations.EveryHostActionKeepsTheInvariant : Prop :=
  ∀ (sys sys' : System) (act : HostAction), sys.state.Inv → sys.act act = .next sys' → sys'.state.Inv

/-- R21: after a step, `pc` is at most 0x1000, or it is the `pc` the step began with and the step faulted on fetch; the advance
never wraps. Which `pc` HALT and a fault leave is the spec's decisions D9 and D8 (logs 9, 10). -/
def Obligations.PcStaysWithinMemoryOrFaults : Prop :=
  ∀ s t : State, s.status = .running → s.Inv → step s = .next t →
    t.pc.toNat ≤ 0x1000 ∨ (t.pc = s.pc ∧ t.status = .faulted ∧ t.faultKind = .outOfBoundsFetch)

/-! ## Whole-machine rules -/

/-- R24: no instruction reads a slot that is not live. Two states that agree on everything but the slots at `SP` and above agree
so after any number of steps. Only the host can see those slots (the spec's decision D11; log 11). -/
def Obligations.StaleSlotsAreNeverRead : Prop :=
  ∀ (n : Nat) (s t t' : State) (otherS : Vector Word 16),
    (∀ j : Fin 16, j.val < s.SP.val → s.readS j = State.readS { s with S := otherS } j) →
    runSteps n s = .next t → runSteps n { s with S := otherS } = .next t' →
    { t with S := t'.S } = t' ∧ (∀ j : Fin 16, j.val < t.SP.val → t.readS j = t'.readS j)

/-- R17, R28: no instruction branches on a register. Two states that differ in registers only go through the same pc, stack, run
state and fault record for any number of steps. -/
def Obligations.RegistersNeverSteerControl : Prop :=
  ∀ (n : Nat) (s t t' : State) (otherV : Vector Byte 16),
    runSteps n s = .next t → runSteps n { s with V := otherV } = .next t' → { t with V := t'.V } = t'

/-- R65: call and return pair up. After a CALL at `a` that does not fault, with depth `k` before it, take the first RET that is
reached with depth `k + 1`: up to it the depth stays above `k`, and its step gives `pc = a + 2`, depth `k`, and the slots below
`k` as before the CALL. -/
def Obligations.CallAndReturnPairUp : Prop :=
  ∀ (s r t : State) (nnn : Addr) (n : Nat),
    s.status = .running → s.nextInstr = some (.call nnn) → s.SP.val < 16 →
    runSteps (n + 1) s = .next r → r.status = .running → r.nextInstr = some .ret → r.SP.val = s.SP.val + 1 →
    (∀ m u, m < n → runSteps (m + 1) s = .next u → ¬ (u.nextInstr = some .ret ∧ u.SP.val = s.SP.val + 1)) →
    step r = .next t →
    (∀ m u, m ≤ n → runSteps (m + 1) s = .next u → u.SP.val ≥ s.SP.val + 1) ∧
    t.status = .running ∧ t.pc = s.pc + 2#16 ∧ t.SP = s.SP ∧
    (∀ j : Fin 16, j.val < s.SP.val → t.readS j = s.readS j)

/-- R97: every run ends. From any running state with an empty stack, whatever is in registers, memory, pc and dead slots (every
state after reset and loads is one), the block is HALTED or FAULTED within 2050^17 steps. -/
def Obligations.EveryRunEnds : Prop :=
  ∀ s : State, s.status = .running → s.SP.val = 0 →
    ∃ n, n ≤ 2050 ^ 17 ∧ ∃ t, runSteps n s = .next t ∧ (t.status = .halted ∨ t.status = .faulted)

/-- R89 to R91: whatever the host loads after a reset, in any order, the first step runs from a RUNNING state with an empty
stack and an empty fault record, which meets the invariant; and that step is the block's `Step()` from exactly that state. So
every loaded state meets the hypotheses of `EveryRunEnds`. -/
def Obligations.LoadedStateIsWhatTheFirstStepRunsFrom : Prop :=
  ∀ (acts : List HostAction) (sys : System), (∀ act ∈ acts, act ≠ .step ∧ act ≠ .reset) →
    System.acts System.afterReset acts = .next sys →
    sys.phase = .load ∧ sys.state.status = .running ∧ sys.state.SP.val = 0 ∧ sys.state.S = State.reset.S ∧
    sys.state.faultKind = .none ∧ sys.state.Inv ∧
    (∀ t, step sys.state = .next t → sys.act .step = .next { state := t, phase := .run })
end

