-- ==== Sys2Proof/Laws/Decode.lean ====
section
/-! SUPPORT. Small facts about words, rows and operands (spec/30_encoding.md). -/

namespace Sys2Proof

/-- Every instruction is well-formed, by its operands' widths (R17, R49). -/
@[simp] theorem Instr.wellFormed_eq_true (i : Instr) : i.wellFormed = true := by
  cases i with
  | halt => rfl
  | ret => rfl
  | call nnn =>
    have := nnn.isLt
    simp only [wellFormed, toAsm, Asm.wellFormed, decide_eq_true_eq]
    omega
  | add x y =>
    have := x.isLt
    have := y.isLt
    simp only [wellFormed, toAsm, Asm.wellFormed, Bool.and_eq_true, decide_eq_true_eq]
    omega

/-- A row accepts a word when the word's masked bits are the row's (R50). -/
theorem OpcodeRow.accepts_iff (r : OpcodeRow) (w : Word) : r.accepts w = true ↔ w &&& r.mask = r.pattern := by
  simp [accepts]

/-- A mask on two parts put together is the masks on the parts. -/
theorem append_and_append {n m : Nat} (a c : BitVec n) (b d : BitVec m) :
    (a ++ b) &&& (c ++ d) = (a &&& c) ++ (b &&& d) := by
  ext i hi
  simp only [BitVec.getElem_and, BitVec.getElem_append]
  split <;> rfl

/-- The word of two bytes as a number (R35). -/
theorem wordOfBytes_toNat (hi lo : Byte) : (wordOfBytes hi lo).toNat = hi.toNat * 256 + lo.toNat := by
  have h := lo.isLt
  rw [wordOfBytes, BitVec.toNat_append, Nat.shiftLeft_eq, ← Nat.shiftLeft_eq, ← Nat.shiftLeft_add_eq_or_of_lt h,
    Nat.shiftLeft_eq]

/-- The high byte of a word as a number (R35). -/
theorem highByte_toNat (w : Word) : (highByte w).toNat = w.toNat / 256 := by
  have := w.isLt
  rw [highByte, BitVec.extractLsb'_toNat, Nat.shiftRight_eq_div_pow]
  omega

/-- The low byte of a word as a number (R35). -/
theorem lowByte_toNat (w : Word) : (lowByte w).toNat = w.toNat % 256 := by
  rw [lowByte, BitVec.extractLsb'_toNat, Nat.shiftRight_eq_div_pow]
  omega

/-- A word put together again from its two bytes (R35). -/
@[simp] theorem wordOfBytes_bytes (w : Word) : wordOfBytes (highByte w) (lowByte w) = w := by
  apply BitVec.eq_of_toNat_eq
  rw [wordOfBytes_toNat, highByte_toNat, lowByte_toNat]
  omega

@[simp] theorem highByte_wordOfBytes (hi lo : Byte) : highByte (wordOfBytes hi lo) = hi := by
  apply BitVec.eq_of_toNat_eq
  have := lo.isLt
  rw [highByte_toNat, wordOfBytes_toNat]
  omega

@[simp] theorem lowByte_wordOfBytes (hi lo : Byte) : lowByte (wordOfBytes hi lo) = lo := by
  apply BitVec.eq_of_toNat_eq
  have := lo.isLt
  rw [lowByte_toNat, wordOfBytes_toNat]
  omega

/-- The byte decoder on two bytes and more is the word decoder on their word (R35, R54). -/
theorem decodeBytes_cons_cons (hi lo : Byte) (rest : List Byte) :
    decodeBytes (hi :: lo :: rest) =
      match decodeWord (wordOfBytes hi lo) with
      | .ok i => .ok (i, rest)
      | .error c => .error (.illegalWord (wordOfBytes hi lo) c) := rfl

/-! ## Fields and masks as numbers (R46, R47, R51) -/

theorem splitFields_o_toNat (w : Word) : (splitFields w).o.toNat = w.toNat / 4096 := by
  have := w.isLt
  rw [splitFields, BitVec.extractLsb'_toNat, Nat.shiftRight_eq_div_pow]
  omega

theorem splitFields_x_toNat (w : Word) : (splitFields w).x.toNat = w.toNat / 256 % 16 := by
  rw [splitFields, BitVec.extractLsb'_toNat, Nat.shiftRight_eq_div_pow]

theorem splitFields_y_toNat (w : Word) : (splitFields w).y.toNat = w.toNat / 16 % 16 := by
  rw [splitFields, BitVec.extractLsb'_toNat, Nat.shiftRight_eq_div_pow]

theorem splitFields_d_toNat (w : Word) : (splitFields w).d.toNat = w.toNat % 16 := by
  rw [splitFields, BitVec.extractLsb'_toNat, Nat.shiftRight_zero]

theorem splitFields_nnn_toNat (w : Word) : (splitFields w).nnn.toNat = w.toNat % 4096 := by
  rw [splitFields, BitVec.extractLsb'_toNat, Nat.shiftRight_zero]

/-- The bits of CALL's row are the words 0x2000 to 0x2FFF (R51). -/
theorem and_callMask_iff (w : Word) : w &&& 0xF000#16 = 0x2000#16 ↔ 0x2000 ≤ w.toNat ∧ w.toNat ≤ 0x2FFF := by
  have shifted : w &&& 0xF000#16 = (w >>> 12) <<< 12 := by
    ext i hi
    simp only [BitVec.getElem_and, BitVec.getElem_shiftLeft, BitVec.getElem_ushiftRight]
    interval_cases i <;> simp [BitVec.getLsbD_eq_getElem]
  have := w.isLt
  rw [shifted, ← BitVec.toNat_inj, BitVec.toNat_shiftLeft, BitVec.toNat_ushiftRight, Nat.shiftLeft_eq,
    Nat.shiftRight_eq_div_pow, BitVec.toNat_ofNat]
  omega

/-- The bits of ADD's row are the words 0x8xy4 (R51). -/
theorem and_addMask_iff (w : Word) :
    w &&& 0xF00F#16 = 0x8004#16 ↔ 0x8000 ≤ w.toNat ∧ w.toNat ≤ 0x8FFF ∧ w.toNat % 16 = 4 := by
  have parted : w &&& 0xF00F#16 = ((w >>> 12) <<< 12) + (w - ((w >>> 4) <<< 4)) := by
    have low : w - ((w >>> 4) <<< 4) = w &&& 0x000F#16 := by
      apply BitVec.eq_of_toNat_eq
      have := w.isLt
      have mod : w.toNat &&& 15 = w.toNat % 16 := Nat.and_two_pow_sub_one_eq_mod _ 4
      rw [BitVec.toNat_sub, BitVec.toNat_shiftLeft, BitVec.toNat_ushiftRight, Nat.shiftLeft_eq,
        Nat.shiftRight_eq_div_pow, BitVec.toNat_and, BitVec.toNat_ofNat, mod]
      omega
    have disjoint : ((w >>> 12) <<< 12) &&& (w &&& 0x000F#16) = 0#16 := by
      ext i hi
      simp only [BitVec.getElem_and, BitVec.getElem_shiftLeft, BitVec.getElem_ushiftRight]
      interval_cases i <;> simp
    rw [low, BitVec.add_eq_or_of_and_eq_zero _ _ disjoint]
    ext i hi
    simp only [BitVec.getElem_and, BitVec.getElem_or, BitVec.getElem_shiftLeft, BitVec.getElem_ushiftRight]
    interval_cases i <;> simp [BitVec.getLsbD_eq_getElem]
  have := w.isLt
  rw [parted, ← BitVec.toNat_inj, BitVec.toNat_add, BitVec.toNat_sub, BitVec.toNat_shiftLeft, BitVec.toNat_ushiftRight,
    BitVec.toNat_shiftLeft, BitVec.toNat_ushiftRight, Nat.shiftLeft_eq, Nat.shiftRight_eq_div_pow, Nat.shiftLeft_eq,
    Nat.shiftRight_eq_div_pow, BitVec.toNat_ofNat]
  omega

/-! ## Encoding as a number (R55) -/

theorem append_toNat {n m : Nat} (a : BitVec n) (b : BitVec m) : (a ++ b).toNat = a.toNat * 2 ^ m + b.toNat := by
  rw [BitVec.toNat_append, ← Nat.shiftLeft_add_eq_or_of_lt b.isLt, Nat.shiftLeft_eq]

theorem encode_call_toNat (nnn : Addr) : (encode (.call nnn)).toNat = 0x2000 + nnn.toNat := by
  rw [encode, append_toNat]
  rfl

theorem encode_add_toNat (x y : RegIx) : (encode (.add x y)).toNat = 0x8004 + x.toNat * 256 + y.toNat * 16 := by
  rw [encode, append_toNat, append_toNat, append_toNat]
  simp only [BitVec.toNat_ofNat]
  omega

/-! ## The decoder, once -/

/-- What the decoder can answer, once: the row that matched, or that none did (R50, R51). -/
theorem decodeWord_cases (w : Word) :
    (w = 0x0000#16 ∧ decodeWord w = .ok .halt) ∨
    (w = 0x00EE#16 ∧ decodeWord w = .ok .ret) ∨
    (w &&& 0xF000#16 = 0x2000#16 ∧ decodeWord w = .ok (.call (splitFields w).nnn)) ∨
    (w &&& 0xF00F#16 = 0x8004#16 ∧ decodeWord w = .ok (.add (splitFields w).x (splitFields w).y)) ∨
    (w ≠ 0x0000#16 ∧ w ≠ 0x00EE#16 ∧ w &&& 0xF000#16 ≠ 0x2000#16 ∧ w &&& 0xF00F#16 ≠ 0x8004#16 ∧
      decodeWord w = .error (illegalClass (splitFields w))) := by
  have full : ∀ v : Word, v &&& 0xFFFF#16 = v := fun v => BitVec.and_allOnes
  by_cases h0 : w = 0x0000#16
  · subst h0
    exact .inl ⟨rfl, rfl⟩
  by_cases h1 : w = 0x00EE#16
  · subst h1
    exact .inr (.inl ⟨rfl, rfl⟩)
  have n0 : haltRow.accepts w = false := by simpa [OpcodeRow.accepts, haltRow, full] using h0
  have n1 : retRow.accepts w = false := by simpa [OpcodeRow.accepts, retRow, full] using h1
  by_cases h2 : w &&& 0xF000#16 = 0x2000#16
  · have y2 : callRow.accepts w = true := (OpcodeRow.accepts_iff ..).mpr h2
    exact .inr (.inr (.inl ⟨h2, by simp [decodeWord, n0, n1, y2]⟩))
  have n2 : callRow.accepts w = false := by simpa [OpcodeRow.accepts, callRow] using h2
  by_cases h3 : w &&& 0xF00F#16 = 0x8004#16
  · have y3 : addRow.accepts w = true := (OpcodeRow.accepts_iff ..).mpr h3
    exact .inr (.inr (.inr (.inl ⟨h3, by simp [decodeWord, n0, n1, n2, y3]⟩)))
  · have n3 : addRow.accepts w = false := by simpa [OpcodeRow.accepts, addRow] using h3
    exact .inr (.inr (.inr (.inr ⟨h0, h1, h2, h3, by simp [decodeWord, n0, n1, n2, n3]⟩)))

/-- The same by the word's value: which range of words each answer belongs to (R51, R52). -/
theorem decodeWord_ranges (w : Word) :
    (w.toNat = 0 ∧ decodeWord w = .ok .halt) ∨
    (w.toNat = 0xEE ∧ decodeWord w = .ok .ret) ∨
    (0x2000 ≤ w.toNat ∧ w.toNat ≤ 0x2FFF ∧ decodeWord w = .ok (.call (splitFields w).nnn)) ∨
    (0x8000 ≤ w.toNat ∧ w.toNat ≤ 0x8FFF ∧ w.toNat % 16 = 4 ∧
      decodeWord w = .ok (.add (splitFields w).x (splitFields w).y)) ∨
    (w.toNat ≠ 0 ∧ w.toNat ≠ 0xEE ∧ ¬ (0x2000 ≤ w.toNat ∧ w.toNat ≤ 0x2FFF) ∧
      ¬ (0x8000 ≤ w.toNat ∧ w.toNat ≤ 0x8FFF ∧ w.toNat % 16 = 4) ∧
      decodeWord w = .error (illegalClass (splitFields w))) := by
  have h := decodeWord_cases w
  rw [and_callMask_iff, and_addMask_iff, ne_eq, ne_eq, ne_eq, ne_eq, and_callMask_iff, and_addMask_iff,
    ← BitVec.toNat_inj, ← BitVec.toNat_inj] at h
  simp only [and_assoc] at h
  exact h

end Sys2Proof
end

