-- ==== Sys2Proof/Laws/State.lean ====
section
/-! SUPPORT. For every update of the state, what it does to every field, true by definition; and reading back a register or a
slot. With these no proof unfolds a record update. -/

namespace Sys2Proof.Machine.State

variable (s : State)

/-! ### `writeM` (R89: only memory changes) -/

@[simp] theorem writeM_V (a : Addr) (b : Byte) : (s.writeM a b).V = s.V := rfl
@[simp] theorem writeM_pc (a : Addr) (b : Byte) : (s.writeM a b).pc = s.pc := rfl
@[simp] theorem writeM_S (a : Addr) (b : Byte) : (s.writeM a b).S = s.S := rfl
@[simp] theorem writeM_SP (a : Addr) (b : Byte) : (s.writeM a b).SP = s.SP := rfl
@[simp] theorem writeM_status (a : Addr) (b : Byte) : (s.writeM a b).status = s.status := rfl
@[simp] theorem writeM_faultKind (a : Addr) (b : Byte) : (s.writeM a b).faultKind = s.faultKind := rfl
@[simp] theorem writeM_faultAddr (a : Addr) (b : Byte) : (s.writeM a b).faultAddr = s.faultAddr := rfl
@[simp] theorem writeM_faultWord (a : Addr) (b : Byte) : (s.writeM a b).faultWord = s.faultWord := rfl
@[simp] theorem writeM_M (a : Addr) (b : Byte) : (s.writeM a b).M = s.M.write a b := rfl

/-! ### `writeV` (R12: only the register file changes) -/

@[simp] theorem writeV_V (i : RegIx) (v : Byte) : (s.writeV i v).V = s.V.set i.toNat v i.isLt := rfl
@[simp] theorem writeV_pc (i : RegIx) (v : Byte) : (s.writeV i v).pc = s.pc := rfl
@[simp] theorem writeV_S (i : RegIx) (v : Byte) : (s.writeV i v).S = s.S := rfl
@[simp] theorem writeV_SP (i : RegIx) (v : Byte) : (s.writeV i v).SP = s.SP := rfl
@[simp] theorem writeV_status (i : RegIx) (v : Byte) : (s.writeV i v).status = s.status := rfl
@[simp] theorem writeV_faultKind (i : RegIx) (v : Byte) : (s.writeV i v).faultKind = s.faultKind := rfl
@[simp] theorem writeV_faultAddr (i : RegIx) (v : Byte) : (s.writeV i v).faultAddr = s.faultAddr := rfl
@[simp] theorem writeV_faultWord (i : RegIx) (v : Byte) : (s.writeV i v).faultWord = s.faultWord := rfl
@[simp] theorem writeV_M (i : RegIx) (v : Byte) : (s.writeV i v).M = s.M := rfl

/-! ### `setPc` (R12: only `pc` changes) -/

@[simp] theorem setPc_V (target : Word) : (s.setPc target).V = s.V := rfl
@[simp] theorem setPc_pc (target : Word) : (s.setPc target).pc = target := rfl
@[simp] theorem setPc_S (target : Word) : (s.setPc target).S = s.S := rfl
@[simp] theorem setPc_SP (target : Word) : (s.setPc target).SP = s.SP := rfl
@[simp] theorem setPc_status (target : Word) : (s.setPc target).status = s.status := rfl
@[simp] theorem setPc_faultKind (target : Word) : (s.setPc target).faultKind = s.faultKind := rfl
@[simp] theorem setPc_faultAddr (target : Word) : (s.setPc target).faultAddr = s.faultAddr := rfl
@[simp] theorem setPc_faultWord (target : Word) : (s.setPc target).faultWord = s.faultWord := rfl
@[simp] theorem setPc_M (target : Word) : (s.setPc target).M = s.M := rfl

/-! ### `advance` (R59: only `pc` changes) -/

@[simp] theorem advance_V : s.advance.V = s.V := rfl
@[simp] theorem advance_pc : s.advance.pc = s.pc + 2#16 := rfl
@[simp] theorem advance_S : s.advance.S = s.S := rfl
@[simp] theorem advance_SP : s.advance.SP = s.SP := rfl
@[simp] theorem advance_status : s.advance.status = s.status := rfl
@[simp] theorem advance_faultKind : s.advance.faultKind = s.faultKind := rfl
@[simp] theorem advance_faultAddr : s.advance.faultAddr = s.faultAddr := rfl
@[simp] theorem advance_faultWord : s.advance.faultWord = s.faultWord := rfl
@[simp] theorem advance_M : s.advance.M = s.M := rfl

/-! ### `setStatus` (R12: only `status` changes) -/

@[simp] theorem setStatus_V (st : Status) : (s.setStatus st).V = s.V := rfl
@[simp] theorem setStatus_pc (st : Status) : (s.setStatus st).pc = s.pc := rfl
@[simp] theorem setStatus_S (st : Status) : (s.setStatus st).S = s.S := rfl
@[simp] theorem setStatus_SP (st : Status) : (s.setStatus st).SP = s.SP := rfl
@[simp] theorem setStatus_status (st : Status) : (s.setStatus st).status = st := rfl
@[simp] theorem setStatus_faultKind (st : Status) : (s.setStatus st).faultKind = s.faultKind := rfl
@[simp] theorem setStatus_faultAddr (st : Status) : (s.setStatus st).faultAddr = s.faultAddr := rfl
@[simp] theorem setStatus_faultWord (st : Status) : (s.setStatus st).faultWord = s.faultWord := rfl
@[simp] theorem setStatus_M (st : Status) : (s.setStatus st).M = s.M := rfl

/-! ### `raise` (R79: only the record and `status` change) -/

@[simp] theorem raise_V (k : FaultKind) (a w : Word) : (s.raise k a w).V = s.V := rfl
@[simp] theorem raise_pc (k : FaultKind) (a w : Word) : (s.raise k a w).pc = s.pc := rfl
@[simp] theorem raise_S (k : FaultKind) (a w : Word) : (s.raise k a w).S = s.S := rfl
@[simp] theorem raise_SP (k : FaultKind) (a w : Word) : (s.raise k a w).SP = s.SP := rfl
@[simp] theorem raise_status (k : FaultKind) (a w : Word) : (s.raise k a w).status = .faulted := rfl
@[simp] theorem raise_faultKind (k : FaultKind) (a w : Word) : (s.raise k a w).faultKind = k := rfl
@[simp] theorem raise_faultAddr (k : FaultKind) (a w : Word) : (s.raise k a w).faultAddr = a := rfl
@[simp] theorem raise_faultWord (k : FaultKind) (a w : Word) : (s.raise k a w).faultWord = w := rfl
@[simp] theorem raise_M (k : FaultKind) (a w : Word) : (s.raise k a w).M = s.M := rfl

/-! ### `setVF` (R67: only the register file changes) -/

@[simp] theorem setVF_V (c : BitVec 1) : (s.setVF c).V = s.V.set 15 (c.setWidth 8) (by omega) := rfl
@[simp] theorem setVF_pc (c : BitVec 1) : (s.setVF c).pc = s.pc := rfl
@[simp] theorem setVF_S (c : BitVec 1) : (s.setVF c).S = s.S := rfl
@[simp] theorem setVF_SP (c : BitVec 1) : (s.setVF c).SP = s.SP := rfl
@[simp] theorem setVF_status (c : BitVec 1) : (s.setVF c).status = s.status := rfl
@[simp] theorem setVF_faultKind (c : BitVec 1) : (s.setVF c).faultKind = s.faultKind := rfl
@[simp] theorem setVF_faultAddr (c : BitVec 1) : (s.setVF c).faultAddr = s.faultAddr := rfl
@[simp] theorem setVF_faultWord (c : BitVec 1) : (s.setVF c).faultWord = s.faultWord := rfl
@[simp] theorem setVF_M (c : BitVec 1) : (s.setVF c).M = s.M := rfl

/-! ### The reset state (R31) -/

@[simp] theorem reset_V : reset.V = Vector.replicate 16 0x00#8 := rfl
@[simp] theorem reset_pc : reset.pc = 0x0000#16 := rfl
@[simp] theorem reset_S : reset.S = Vector.replicate 16 0x0000#16 := rfl
@[simp] theorem reset_SP : reset.SP = 0 := rfl
@[simp] theorem reset_status : reset.status = .running := rfl
@[simp] theorem reset_faultKind : reset.faultKind = .none := rfl
@[simp] theorem reset_faultAddr : reset.faultAddr = 0x0000#16 := rfl
@[simp] theorem reset_faultWord : reset.faultWord = 0x0000#16 := rfl
@[simp] theorem reset_M : reset.M = [] := rfl

/-! ### Reading back -/

/-- A register reads what was last written to it, and a write changes no other: no aliases, nothing hardwired (R16). -/
theorem readV_writeV (i j : RegIx) (v : Byte) : (s.writeV i v).readV j = if j = i then v else s.readV j := by
  simp only [readV, writeV, Vector.getElem_set, BitVec.toNat_inj, eq_comm]

@[simp] theorem readV_writeV_self (i : RegIx) (v : Byte) : (s.writeV i v).readV i = v := by
  simp [readV_writeV]

theorem readV_writeV_ne (i j : RegIx) (v : Byte) (h : j ≠ i) : (s.writeV i v).readV j = s.readV j := by
  simp [readV_writeV, h]

/-- VF reads the carry that was set, zero-extended; no other register changes (R67). -/
theorem readV_setVF (c : BitVec 1) (j : RegIx) :
    (s.setVF c).readV j = if j = 0xF#4 then c.setWidth 8 else s.readV j :=
  readV_writeV s _ _ _

/-- Two states with the same register file read alike (R12). -/
theorem readV_congr {s t : State} (h : t.V = s.V) (i : RegIx) : t.readV i = s.readV i := by
  simp [readV, h]

/-- Two states with the same slots read alike (R12). -/
theorem readS_congr {s t : State} (h : t.S = s.S) (j : Fin 16) : t.readS j = s.readS j := by
  simp [readS, h]

/-- A register file is determined by its registers (R16). -/
theorem V_ext {s t : State} (h : ∀ i : RegIx, t.readV i = s.readV i) : t.V = s.V := by
  apply Vector.ext
  intro i hi
  have := h (BitVec.ofNat 4 i)
  simpa [readV, Nat.mod_eq_of_lt hi] using this

end Sys2Proof.Machine.State
end

