-- ==== Sys2Proof/Laws/HostPort.lean ====
section
/-! SUPPORT. What the host reads, field by field, and the host's actions by phase (spec/00_scope.md R7; spec/60_exceptions.md R82;
spec/70_reset_and_hazards.md R89). -/

namespace Sys2Proof.Machine

variable (s : State)

/-! ## Reading (R7, R82) -/

@[simp] theorem State.statusPort_status : s.statusPort.status = s.status.code := rfl
@[simp] theorem State.statusPort_faultKind : s.statusPort.faultKind = s.faultKind.code := rfl
@[simp] theorem State.statusPort_faultAddr : s.statusPort.faultAddr = s.faultAddr := rfl
@[simp] theorem State.statusPort_faultWord : s.statusPort.faultWord = s.faultWord := rfl
@[simp] theorem State.readOut_V : s.readOut.V = s.V := rfl
@[simp] theorem State.readOut_pc : s.readOut.pc = s.pc := rfl
@[simp] theorem State.readOut_S : s.readOut.S = s.S := rfl
@[simp] theorem State.readOut_SP : s.readOut.SP = s.spPort := rfl
@[simp] theorem State.readOut_M : s.readOut.M = s.M := rfl
@[simp] theorem State.readOut_byteAt (a : Addr) : s.readOut.byteAt a = s.imemRd a := rfl
@[simp] theorem System.statusPort_eq (sys : System) : sys.statusPort = sys.state.statusPort := rfl
@[simp] theorem System.readOut_eq (sys : System) : sys.readOut = sys.state.readOut := rfl

/-- `SP` fits the five bits the host reads (R23). -/
@[simp] theorem State.spPort_toNat : s.spPort.toNat = s.SP.val := by
  have := s.SP.isLt
  simp only [State.spPort, BitVec.toNat_ofNat]
  omega

theorem Status.code_inj {a b : Status} (h : a.code = b.code) : a = b := by
  cases a <;> cases b <;> first | rfl | cases h

theorem FaultKind.code_inj {a b : FaultKind} (h : a.code = b.code) : a = b := by
  cases a <;> cases b <;> first | rfl | cases h

/-! ## Actions, by phase (R89) -/

@[simp] theorem System.act_reset (sys : System) : sys.act .reset = .next System.afterReset := rfl
@[simp] theorem System.act_loadReg_run (i : RegIx) (v : Byte) :
    System.act { state := s, phase := .run } (.loadReg i v) = .next { state := s, phase := .run } := rfl
@[simp] theorem System.act_loadPc_run (v : Word) :
    System.act { state := s, phase := .run } (.loadPc v) = .next { state := s, phase := .run } := rfl

/-- A host step answers what the block's step answers, in the run phase. -/
theorem System.act_step_of_next {sys : System} {t : State} (h : step sys.state = .next t) :
    sys.act .step = .next { state := t, phase := .run } := by
  simp only [System.act, hostStep, h]

end Sys2Proof.Machine
end

