-- ==== Sys2Proof/Laws/Memory.lean ====
section
/-! SUPPORT. Memory: read after write, and that every operation keeps the canonical form (spec/20_memory.md R32, R33;
spec/70_reset_and_hazards.md R87, R89). -/

namespace Sys2Proof.Machine.Memory

/-! ## The canonical form -/

theorem wfFrom_cons (lo a : Nat) (b : Byte) (rest : Memory) :
    wfFrom lo ((a, b) :: rest) = true ↔
      lo ≤ a ∧ a < 4096 ∧ b ≠ 0x00#8 ∧ wfFrom (a + 1) rest = true := by
  simp [wfFrom, and_assoc]

/-- A memory canonical from an address on is canonical from any lower one. -/
theorem wfFrom_mono {lo lo' : Nat} {m : Memory} (h : lo' ≤ lo) (hm : wfFrom lo m = true) : wfFrom lo' m = true := by
  cases m with
  | nil => rfl
  | cons c rest =>
    obtain ⟨a, b⟩ := c
    rw [wfFrom_cons] at hm ⊢
    exact ⟨h.trans hm.1, hm.2⟩

/-- Nothing is listed below the address a canonical memory starts from. -/
theorem lookup_below {lo k : Nat} {m : Memory} (hm : wfFrom lo m = true) (hk : k < lo) : m.lookup k = 0x00#8 := by
  induction m generalizing lo with
  | nil => rfl
  | cons c rest ih =>
    obtain ⟨a, b⟩ := c
    rw [wfFrom_cons] at hm
    rw [lookup, if_neg (by omega)]
    exact ih hm.2.2.2 (by omega)

theorem wfFrom_insert {lo k : Nat} {v : Byte} {m : Memory} (hm : wfFrom lo m = true) (hlo : lo ≤ k) (hk : k < 4096)
    (hv : v ≠ 0x00#8) : wfFrom lo (insert k v m) = true := by
  induction m generalizing lo with
  | nil => exact (wfFrom_cons ..).mpr ⟨hlo, hk, hv, rfl⟩
  | cons c rest ih =>
    obtain ⟨a, b⟩ := c
    rw [wfFrom_cons] at hm
    obtain ⟨h1, h2, h3, h4⟩ := hm
    unfold insert
    split_ifs with h h'
    · simp only [wfFrom_cons]
      exact ⟨hlo, hk, hv, by omega, h2, h3, h4⟩
    · subst h'
      rw [wfFrom_cons]
      exact ⟨hlo, hk, hv, h4⟩
    · rw [wfFrom_cons]
      exact ⟨h1, h2, h3, ih h4 (by omega)⟩

theorem wfFrom_erase {lo k : Nat} {m : Memory} (hm : wfFrom lo m = true) : wfFrom lo (erase k m) = true := by
  induction m generalizing lo with
  | nil => rfl
  | cons c rest ih =>
    obtain ⟨a, b⟩ := c
    rw [wfFrom_cons] at hm
    obtain ⟨h1, h2, h3, h4⟩ := hm
    unfold erase
    split_ifs with h
    · exact wfFrom_mono (by omega) h4
    · rw [wfFrom_cons]
      exact ⟨h1, h2, h3, ih h4⟩

/-- A write keeps the canonical form. -/
theorem wf_write {m : Memory} (hm : m.wf = true) (a : Addr) (b : Byte) : (m.write a b).wf = true := by
  unfold write
  split_ifs with h
  · exact wfFrom_erase hm
  · exact wfFrom_insert hm (Nat.zero_le _) (by have := a.isLt; omega) h

/-- The memory of the reset state is canonical. -/
@[simp] theorem wf_nil : wf [] = true := rfl

/-! ## Read after write -/

theorem lookup_insert (k j : Nat) (v : Byte) (m : Memory) : (insert k v m).lookup j = if j = k then v else m.lookup j := by
  induction m with
  | nil => simp [insert, lookup, eq_comm]
  | cons c rest ih =>
    obtain ⟨a, b⟩ := c
    unfold insert
    split_ifs with h h' hj
    all_goals simp only [lookup]
    all_goals (try simp only [ih])
    all_goals split_ifs <;> first | rfl | omega

theorem lookup_erase {lo k j : Nat} {m : Memory} (hm : wfFrom lo m = true) :
    (erase k m).lookup j = if j = k then 0x00#8 else m.lookup j := by
  induction m generalizing lo with
  | nil => simp [erase, lookup]
  | cons c rest ih =>
    obtain ⟨a, b⟩ := c
    rw [wfFrom_cons] at hm
    have hrest := hm.2.2.2
    unfold erase
    split_ifs with h hj hj
    · subst h hj
      exact lookup_below hrest (by omega)
    · simp only [lookup]
      rw [if_neg (by omega)]
    · simp only [lookup]
      rw [if_neg (by omega), ih hrest, if_pos hj]
    · simp only [lookup]
      rw [ih hrest, if_neg hj]

/-- A byte reads what was last written to it, and a write changes no other byte. -/
theorem read_write {m : Memory} (hm : m.wf = true) (a c : Addr) (b : Byte) :
    (m.write a b).read c = if c = a then b else m.read c := by
  unfold write read
  split_ifs with h h' h'
  · subst h'
    rw [lookup_erase hm, if_pos rfl, h]
  · rw [lookup_erase hm, if_neg (by simpa [BitVec.toNat_inj] using h')]
  · subst h'
    rw [lookup_insert, if_pos rfl]
  · rw [lookup_insert, if_neg (by simpa [BitVec.toNat_inj] using h')]

/-- Memory with nothing loaded reads 0x00 everywhere (R87). -/
@[simp] theorem read_nil (a : Addr) : read [] a = 0x00#8 := rfl

/-- Canonical memories that look up alike are equal: the form is canonical. -/
theorem wfFrom_ext {lo : Nat} {m m' : Memory} (hm : wfFrom lo m = true) (hm' : wfFrom lo m' = true)
    (h : ∀ k, m.lookup k = m'.lookup k) : m = m' := by
  induction m generalizing lo m' with
  | nil =>
    cases m' with
    | nil => rfl
    | cons c' rest' =>
      obtain ⟨a', b'⟩ := c'
      rw [wfFrom_cons] at hm'
      exact absurd ((h a').symm.trans rfl) (by simpa [lookup] using hm'.2.2.1)
  | cons c rest ih =>
    obtain ⟨a, b⟩ := c
    cases m' with
    | nil =>
      rw [wfFrom_cons] at hm
      exact absurd (h a) (by simpa [lookup] using hm.2.2.1)
    | cons c' rest' =>
      obtain ⟨a', b'⟩ := c'
      rw [wfFrom_cons] at hm hm'
      have below : ∀ {j k : Nat} {n : Memory}, wfFrom (j + 1) n = true → k ≤ j → n.lookup k = 0x00#8 :=
        fun hn hk => lookup_below hn (by omega)
      have haa : a = a' := by
        rcases lt_trichotomy a a' with hlt | heq | hgt
        · have := h a
          rw [lookup, if_pos rfl, lookup, if_neg (by omega), below hm'.2.2.2 (by omega)] at this
          exact absurd this hm.2.2.1
        · exact heq
        · have := h a'
          rw [lookup, if_neg (by omega), below hm.2.2.2 (by omega), lookup, if_pos rfl] at this
          exact absurd this.symm hm'.2.2.1
      subst haa
      have hbb : b = b' := by simpa [lookup] using h a
      subst hbb
      rw [ih hm.2.2.2 hm'.2.2.2 fun k => ?_]
      by_cases hk : a = k
      · subst hk
        rw [below hm.2.2.2 le_rfl, below hm'.2.2.2 le_rfl]
      · simpa [lookup, hk] using h k

/-- Two canonical memories that read alike at every address are the same list. -/
theorem wf_ext {m m' : Memory} (hm : m.wf = true) (hm' : m'.wf = true) (h : ∀ a : Addr, m.read a = m'.read a) : m = m' := by
  refine wfFrom_ext hm hm' fun k => ?_
  have above : ∀ {lo : Nat} {n : Memory}, wfFrom lo n = true → 4096 ≤ k → n.lookup k = 0x00#8 := by
    intro lo n hn hk
    induction n generalizing lo with
    | nil => rfl
    | cons c rest ih =>
      obtain ⟨a, b⟩ := c
      rw [wfFrom_cons] at hn
      rw [lookup, if_neg (by omega)]
      exact ih hn.2.2.2
  by_cases hk : k < 4096
  · have := h (BitVec.ofNat 12 k)
    simpa [read, Nat.mod_eq_of_lt hk] using this
  · rw [above hm (by omega), above hm' (by omega)]

end Sys2Proof.Machine.Memory
end

