-- ==== Sys2Proof/Laws/Ops.lean ====
section
/-! SUPPORT. For each shared operation, and for each handler, everything it can do, said once; later proofs cite these and unfold
nothing. -/

namespace Sys2Proof.Machine

/-! ## Call stack (R61, R62) -/

/-- A push happens exactly where the stack is not full, and then writes slot `SP` and `SP` alone. -/
theorem State.pushReturn_cases (s : State) (ret : Word) :
    (s.SP.val = 16 ∧ s.pushReturn ret = none) ∨
    (∃ h : s.SP.val < 16, s.pushReturn ret = some { s with
      S := s.S.set s.SP.val ret h, SP := ⟨s.SP.val + 1, by omega⟩ }) := by
  have := s.SP.isLt
  unfold State.pushReturn
  split
  · exact .inl ⟨‹_›, rfl⟩
  · exact .inr ⟨by omega, rfl⟩

/-- A pop happens exactly where the stack is not empty, and then writes `SP` and `pc` alone. -/
theorem State.popReturn_cases (s : State) :
    (s.SP.val = 0 ∧ s.popReturn = none) ∨
    (∃ k : Fin 16, k.val + 1 = s.SP.val ∧ s.popReturn = some { s with SP := ⟨k.val, by omega⟩, pc := s.readS k }) := by
  have := s.SP.isLt
  unfold State.popReturn
  split
  · exact .inl ⟨‹_›, rfl⟩
  · exact .inr ⟨⟨s.SP.val - 1, by omega⟩, by simp only; omega, rfl⟩

/-! ## Fetch (R35, R37) -/

/-- A fetch succeeds exactly up to 0x0FFE. -/
theorem State.fetch_isSome_iff (s : State) (a : Word) : (s.fetch a).isSome = true ↔ a.toNat + 1 < 4096 := by
  unfold State.fetch fetchable
  split <;> simp_all

theorem State.fetch_eq_none_iff (s : State) (a : Word) : s.fetch a = none ↔ a.toNat + 1 ≥ 4096 := by
  rw [← Option.not_isSome_iff_eq_none, State.fetch_isSome_iff]
  omega

/-- A fetch reads the memory alone. -/
theorem State.fetch_congr {s t : State} (h : t.M = s.M) (a : Word) : t.fetch a = s.fetch a := by
  simp [State.fetch, State.imemRd, h]

/-- Where a fetch of `a` can succeed, a placed word is the word fetched: `withFetchWord` does what it is for. -/
theorem State.fetch_placeWord (s : State) (a w : Word) (hM : s.M.wf = true) (ha : a.toNat + 1 < 4096) :
    (s.placeWord a w).fetch a = some w := by
  have hne : (a.setWidth 12 : Addr) ≠ (a + 1#16).setWidth 12 := by
    intro h
    have := congrArg BitVec.toNat h
    simp only [BitVec.toNat_setWidth, BitVec.toNat_add, BitVec.toNat_ofNat] at this
    omega
  have hM' := Memory.wf_write hM (a.setWidth 12) (highByte w)
  have hf : fetchable a = true := by simpa [fetchable] using ha
  simp [State.placeWord, State.fetch, hf, State.imemRd, Memory.read_write hM', Memory.read_write hM, hne]

/-- Placing a word keeps memory canonical. -/
theorem State.placeWord_wf (s : State) (a w : Word) (hM : s.M.wf = true) : (s.placeWord a w).M.wf = true := by
  unfold State.placeWord
  split
  · exact Memory.wf_write (Memory.wf_write hM _ _) _ _
  · exact hM

/-! ## ALU (R66) -/

theorem add8Sum_toNat (p q : Byte) : (add8Sum p q).toNat = (p.toNat + q.toNat) % 256 := by
  simp [add8Sum, add8Exact]

/-- VF after the carry is set, as a number (R67). -/
theorem add8Carry_setWidth_toNat (p q : Byte) :
    ((add8Carry p q).setWidth 8).toNat = if p.toNat + q.toNat > 255 then 1 else 0 := by
  unfold add8Carry add8Exact
  split <;> rfl

/-! ## The handlers (R60, R61, R62, R67) -/

/-- CALL overflows on a full stack, and pushes and jumps on any other. -/
theorem execCall_cases (nnn : Addr) (s : State) :
    (s.SP.val = 16 ∧ execCall nnn s = .next (s.raise .stackOverflow s.instrAddr (encode (.call nnn)))) ∨
    (∃ h : s.SP.val < 16, execCall nnn s = .next { s with
      S := s.S.set s.SP.val s.pc h, SP := ⟨s.SP.val + 1, by omega⟩, pc := callTarget nnn }) := by
  unfold execCall
  rcases s.pushReturn_cases s.pc with ⟨h, e⟩ | ⟨h, e⟩
  · exact .inl ⟨h, by rw [e]⟩
  · exact .inr ⟨h, by rw [e]; rfl⟩

/-- RET underflows on an empty stack, and pops on any other. -/
theorem execRet_cases (s : State) :
    (s.SP.val = 0 ∧ execRet s = .next (s.raise .stackUnderflow s.instrAddr (encode .ret))) ∨
    (∃ k : Fin 16, k.val + 1 = s.SP.val ∧
      execRet s = .next { s with SP := ⟨k.val, by omega⟩, pc := s.readS k }) := by
  unfold execRet
  rcases s.popReturn_cases with ⟨h, e⟩ | ⟨k, h, e⟩
  · exact .inl ⟨h, by rw [e]⟩
  · exact .inr ⟨k, h, by rw [e]⟩

/-- ADD writes the register file alone. -/
theorem execAdd_eq (x y : RegIx) (s : State) :
    execAdd x y s =
      .next ((s.writeV x (add8Sum (s.readV x) (s.readV y))).setVF (add8Carry (s.readV x) (s.readV y))) := rfl

/-- The address a handler sees is the one the step fetched from (R20). -/
@[simp] theorem State.instrAddr_advance (s : State) : s.advance.instrAddr = s.pc := by
  simp [State.instrAddr]

end Sys2Proof.Machine
end

