-- ==== Sys2Proof/Laws/PerInstr.lean ====
section
/-! SUPPORT. What holds of every instruction as syntax, one lemma per constructor. -/

namespace Sys2Proof.Laws.EncodesInItsRow

/-- The word of an instruction matches the instruction's own row of the opcode map (R50, R51). -/
def Statement (i : Instr) : Prop := i.row ∈ opcodeRows ∧ i.row.accepts (encode i) = true

theorem halt : Statement .halt := ⟨by decide, by decide⟩

theorem ret : Statement .ret := ⟨by decide, by decide⟩

theorem call (nnn : Addr) : Statement (.call nnn) := by
  refine ⟨List.mem_of_elem_eq_true rfl, (OpcodeRow.accepts_iff ..).mpr ?_⟩
  have mask : callRow.mask = 0xF#4 ++ 0x000#12 := rfl
  rw [Instr.row, mask, encode, append_and_append]
  simp [callRow]

theorem add (x y : RegIx) : Statement (.add x y) := by
  refine ⟨List.mem_of_elem_eq_true rfl, (OpcodeRow.accepts_iff ..).mpr ?_⟩
  have mask : addRow.mask = 0xF#4 ++ (0x0#4 ++ (0x0#4 ++ 0xF#4)) := rfl
  rw [Instr.row, mask, encode, append_and_append, append_and_append, append_and_append]
  simp [addRow]

end Sys2Proof.Laws.EncodesInItsRow
end

