-- ==== Sys2Proof/Laws/Step.lean ====
section
/-! SUPPORT. Everything a step can do, said once (R57 to R62, R67, R72 to R75), and runs. -/

namespace Sys2Proof.Machine

/-- What the next step dispatches, by the fetched word. -/
theorem State.nextInstr_eq_some_iff (s : State) (i : Instr) :
    s.nextInstr = some i ↔ ∃ w, s.fetch s.pc = some w ∧ decodeWord w = .ok i := by
  unfold State.nextInstr
  cases h : s.fetch s.pc with
  | none => simp
  | some w => cases h' : decodeWord w <;> simp [h']

/-- The next instruction is a matter of `pc` and memory alone. -/
theorem State.nextInstr_congr {s t : State} (hpc : t.pc = s.pc) (hM : t.M = s.M) : t.nextInstr = s.nextInstr := by
  simp only [State.nextInstr, hpc, State.fetch_congr hM]

/-- A step in a stopped state does nothing (R57). -/
theorem step_of_stopped {s : State} (h : s.stopped) : step s = .next s := by
  unfold step sequence
  cases hs : s.status with
  | running => exact absurd hs h
  | halted => rfl
  | faulted => rfl

/-- A step in RUNNING, by its fetch. -/
theorem step_of_running {s : State} (h : s.status = .running) : step s = runStep s := by
  simp [step, sequence, h]

/-- Everything a step in RUNNING can do: the fetch fails; the word is illegal; or the instruction's handler runs after the
advance. -/
theorem step_cases {s : State} (h : s.status = .running) :
    (s.fetch s.pc = none ∧ step s = .next (s.raise .outOfBoundsFetch s.pc 0x0000#16)) ∨
    (∃ w c, s.fetch s.pc = some w ∧ decodeWord w = .error c ∧
      step s = .next (s.advance.raise .unimplementedInstruction s.pc w)) ∨
    (∃ w i, s.fetch s.pc = some w ∧ decodeWord w = .ok i ∧ s.nextInstr = some i ∧ step s = exec i s.advance) := by
  rw [step_of_running h]
  unfold runStep
  cases hf : s.fetch s.pc with
  | none => exact .inl ⟨rfl, rfl⟩
  | some w =>
    simp only [runWord]
    cases hd : decodeWord w with
    | error c => exact .inr (.inl ⟨w, c, rfl, hd, rfl⟩)
    | ok i => exact .inr (.inr ⟨w, i, rfl, hd, (s.nextInstr_eq_some_iff i).mpr ⟨w, hf, hd⟩, rfl⟩)

/-- Where the next step can fetch, `withFetchWord` makes it fetch and run exactly the word placed. -/
theorem step_withFetchWord (s : State) (w : Nat) (i : Instr) (hs : s.status = .running) (hM : s.M.wf = true)
    (hpc : s.pc.toNat + 1 < 4096) (hi : decodeWord (tableWord 16 w) = .ok i) :
    step (s.withFetchWord 16 w) = exec i (s.withFetchWord 16 w).advance := by
  have hplace : ∀ a v, (s.placeWord a v).pc = s.pc ∧ (s.placeWord a v).status = s.status := by
    intro a v
    unfold State.placeWord
    split <;> exact ⟨rfl, rfl⟩
  have hf : (s.withFetchWord 16 w).fetch (s.withFetchWord 16 w).pc = some (tableWord 16 w) := by
    unfold State.withFetchWord
    rw [(hplace _ _).1]
    exact s.fetch_placeWord _ _ hM hpc
  have hrun : (s.withFetchWord 16 w).status = .running := by
    unfold State.withFetchWord
    rw [(hplace _ _).2, hs]
  rw [step_of_running hrun, runStep, hf]
  simp only [runWord, hi]

/-! ## Runs -/

@[simp] theorem runSteps_zero (s : State) : runSteps 0 s = .next s := rfl

theorem runSteps_succ_of_step {s t : State} (n : Nat) (h : step s = .next t) : runSteps (n + 1) s = runSteps n t := by
  simp [runSteps, h]

/-- `m + n` steps are `n` steps from where `m` steps ended: a pause between steps is no event. -/
theorem runSteps_add (n : Nat) {m : Nat} {s t : State} (h : runSteps m s = .next t) : runSteps (m + n) s = runSteps n t := by
  induction m generalizing s with
  | zero =>
    cases h
    rw [Nat.zero_add]
  | succ m ih =>
    cases hs : step s with
    | next u =>
      rw [runSteps_succ_of_step m hs] at h
      rw [Nat.succ_add, runSteps_succ_of_step (m + n) hs, ih h]
    | fault r => simp [runSteps, hs] at h
    | refused r => simp [runSteps, hs] at h

/-- The run is the host interface's own repetition of `step`. -/
theorem core_run_eq (n : Nat) (s : State) : Host.Core.run Sys2Proof.core n s = runSteps n s := by
  induction n generalizing s with
  | zero => rfl
  | succ n ih =>
    unfold runSteps
    cases hs : step s with
    | next t =>
      have hc : Sys2Proof.core.step s = .next t := hs
      simp only [Host.Core.run, hc]
      exact ih t
    | fault r =>
      have hc : Sys2Proof.core.step s = .fault r := hs
      simp only [Host.Core.run, hc]
      rfl
    | refused r =>
      have hc : Sys2Proof.core.step s = .refused r := hs
      simp only [Host.Core.run, hc]
      rfl

/-- The loop issues no step once the block has stopped. -/
theorem runLoop_of_stopped (n : Nat) {s : State} (h : s.stopped) : runLoop n s = .next s := by
  cases n with
  | zero => rfl
  | succ n =>
    unfold runLoop
    cases hs : s.status with
    | running => exact absurd hs h
    | halted => rfl
    | faulted => rfl

theorem runLoop_succ_of_step {s t : State} (n : Nat) (hs : s.status = .running) (h : step s = .next t) :
    runLoop (n + 1) s = runLoop n t := by
  simp [runLoop, hs, h]

end Sys2Proof.Machine
end

