-- ==== Sys2Proof/Tests/Slice0.lean ====
section
/-! SUPPORT. Tests: expected results are those of spec/95_test_vectors.md (the vector's id stands by each) or worked by hand from
the rule named; then one witness for the hypotheses of every statement that has any. -/

namespace Sys2Proof.Tests

open Sys2Proof Sys2Proof.Machine

/-! ## Helpers -/

/-- The reset state with `pc` at `a` and the word `w` stored there. -/
def at_ (a w : Word) : State := (State.reset.setPc a).withFetchWord 16 w.toNat

/-- The same with a stack of `n` live slots, every slot holding `ret`. -/
def withStack (s : State) (n : Fin 17) (ret : Word) : State := { s with SP := n, S := Vector.replicate 16 ret }

/-- A property of the next state, where a step answers one. -/
def nextIs (r : Result) (p : State → Bool) : Bool :=
  match nextOf r with
  | some t => p t
  | none => false

/-! ## WellFormed: an ill-formed term for each check (R55) -/

/-- R55: a value above 4095 is an assembly error, never truncated. -/
theorem test_wellFormed_refuses_address : (Asm.call 4096).wellFormed = false ∧ (Asm.call 4096).assemble = none := by decide

/-- R55: registers are V0..VF. -/
theorem test_wellFormed_refuses_first_register : (Asm.add 16 0).wellFormed = false ∧ (Asm.add 16 0).assemble = none := by decide

theorem test_wellFormed_refuses_second_register : (Asm.add 0 16).wellFormed = false ∧ (Asm.add 0 16).assemble = none := by decide

/-- R55 at its bounds. -/
theorem test_assemble_bounds :
    (Asm.call 4095).assemble = some (.call 0xFFF#12) ∧ (Asm.add 15 14).assemble = some (.add 0xF#4 0xE#4) := by decide

/-! ## Decode and encode: words written out from the bit patterns of R51 -/

/-- `0000 0000 0000 0000`; R53: the all-zero word is HALT. -/
theorem test_decode_halt : decodeWord 0b0000000000000000#16 = .ok .halt := by decide

/-- `0000 0000 1110 1110` (F3). -/
theorem test_decode_ret : decodeWord 0b0000000011101110#16 = .ok .ret := by decide

/-- `0010 nnnn nnnn nnnn` (F1, F10). -/
theorem test_decode_call :
    decodeWord 0b0010000100000000#16 = .ok (.call 0x100#12) ∧ decodeWord 0b0010111111111111#16 = .ok (.call 0xFFF#12) := by
  decide

/-- `1000 xxxx yyyy 0100` (F2, F8). -/
theorem test_decode_add :
    decodeWord 0b1000000000010100#16 = .ok (.add 0x0#4 0x1#4) ∧ decodeWord 0b1000111111100100#16 = .ok (.add 0xF#4 0xE#4) := by
  decide

/-- F7, F11 to F17: illegal words, with their class of R52. -/
theorem test_decode_illegal :
    [0xABCD#16, 0x00E0#16, 0x00EF#16, 0x0001#16, 0x8015#16, 0x1234#16, 0xFFFF#16, 0x0100#16].map decodeWord =
      [.error .families9toF, .error .family0, .error .family0, .error .family0, .error .family8Variant, .error .family1,
       .error .families9toF, .error .family0] := by decide

/-- R54: every instruction has two bytes; the byte decoder says so of a lone byte, and leaves what follows. -/
theorem test_decodeBytes :
    decodeBytes [0x80#8] = .error .fewerThanTwoBytes ∧
    decodeBytes [0x80#8, 0x14#8, 0x00#8] = .ok (.add 0x0#4 0x1#4, [0x00#8]) ∧
    decodeBytes [0x00#8, 0xE0#8] = .error (.illegalWord 0x00E0#16 .family0) := by decide

/-- The opcode table's bit numbering: bit 0 the least significant (spec/opcode_table.json). -/
theorem test_decodeTableWord :
    decodeTableWord 16 0x2ABC = some (.call 0xABC#12) ∧ decodeTableWord 16 0x8015 = none := by decide

/-- The bytes of the programs P1 and P3. -/
theorem test_encode :
    encodeBytes (.call 0x301#12) = [0x23#8, 0x01#8] ∧ encodeBytes (.add 0x2#4 0xF#4) = [0x82#8, 0xF4#8] ∧
    encodeBytes .ret = [0x00#8, 0xEE#8] ∧ encodeBytes .halt = [0x00#8, 0x00#8] := by decide

/-- E2: 0xABCD splits into A, B, C, D and 0xBCD. -/
theorem test_fields :
    splitFields 0xABCD#16 = { o := 0xA#4, x := 0xB#4, y := 0xC#4, d := 0xD#4, nnn := 0xBCD#12 } := by decide

/-! ## Memory and fetch -/

/-- E1: the byte at `pc` is the high byte. -/
theorem test_fetch_big_endian :
    ((State.reset.writeM 0x010#12 0x80#8).writeM 0x011#12 0x14#8).fetch 0x010#16 = some 0x8014#16 := by decide

/-- F3, F4, F5, F6: 0xFFE is the last address a fetch can read; 0xFFFF does not wrap to 0. -/
theorem test_fetch_bounds :
    (at_ 0xFFE#16 0x00EE#16).fetch 0xFFE#16 = some 0x00EE#16 ∧
    [0xFFF#16, 0x1000#16, 0xFFFF#16].map State.reset.fetch = [none, none, none] := by decide

/-- R87: writing what an unloaded byte reads as leaves no entry, so equal memories are equal lists. -/
theorem test_memory_canonical :
    ((State.reset.writeM 0x123#12 0x45#8).writeM 0x123#12 0x00#8) = State.reset := by decide

/-! ## HALT -/

/-- H1, with H2: a second step changes nothing. -/
theorem test_halt :
    nextIs (step (at_ 0x004#16 0x0000#16)) (fun t => t == { at_ 0x004#16 0x0000#16 with status := .halted, pc := 0x006#16 }) ∧
    nextIs (step { at_ 0x006#16 0x1234#16 with status := .halted })
      (fun t => t == { at_ 0x006#16 0x1234#16 with status := .halted }) := by decide

/-- H3, H6: at the top of memory, inside subroutines. -/
theorem test_halt_at_the_top :
    nextIs (step (withStack (at_ 0xFFE#16 0x0000#16) 3 0x002#16))
      (fun t => t.status == .halted && t.pc == 0x1000#16 && t.SP == 3) := by decide

/-! ## CALL -/

/-- C2: the last free slot. -/
theorem test_call_last_slot :
    nextIs (step (withStack (at_ 0x010#16 0x2500#16) 15 0x000#16))
      (fun t => t.readS 15 == 0x012#16 && t.readS 14 == 0x000#16 && t.SP == 16 && t.pc == 0x500#16 && t.status == .running) := by
  decide

/-- C3: Stack-Overflow. -/
theorem test_call_overflow :
    nextIs (step (withStack (at_ 0x010#16 0x2500#16) 16 0x002#16))
      (fun t => t == { withStack (at_ 0x010#16 0x2500#16) 16 0x002#16 with
        status := .faulted, faultKind := .stackOverflow, faultAddr := 0x010#16, faultWord := 0x2500#16, pc := 0x012#16 }) := by
  decide

/-! ## RET -/

/-- T3: the topmost slot; the slot is not cleared. -/
theorem test_ret_full_stack :
    nextIs (step (withStack (at_ 0x200#16 0x00EE#16) 16 0xABC#16))
      (fun t => t.SP == 15 && t.pc == 0xABC#16 && t.readS 15 == 0xABC#16 && t.status == .running) := by decide

/-- T2: Stack-Underflow. -/
theorem test_ret_underflow :
    nextIs (step (at_ 0x000#16 0x00EE#16))
      (fun t => t == { at_ 0x000#16 0x00EE#16 with
        status := .faulted, faultKind := .stackUnderflow, faultAddr := 0x000#16, faultWord := 0x00EE#16, pc := 0x002#16 }) := by
  decide

/-! ## ADD -/

/-- A11: `ADD V3, VF` with V3 = 255, VF = 1: both sources are read before VF is overwritten. -/
theorem test_add_reads_old_vf :
    nextIs (step (((at_ 0x100#16 0x83F4#16).writeV 0x3#4 255#8).writeV 0xF#4 1#8))
      (fun t => t.readV 0x3#4 == 0#8 && t.readV 0xF#4 == 1#8 && t.pc == 0x102#16) := by decide

/-- A12: `ADD VF, V3` with VF = 200, V3 = 100: the sum is lost, the carry wins. -/
theorem test_add_into_vf :
    nextIs (step (((at_ 0x100#16 0x8F34#16).writeV 0x3#4 100#8).writeV 0xF#4 200#8))
      (fun t => t.readV 0xF#4 == 1#8 && t.readV 0x3#4 == 100#8 && t.status == .running) := by decide

/-! ## Faults -/

/-- X1, X5: an illegal word, whatever the stack. -/
theorem test_illegal_word :
    nextIs (step (withStack (at_ 0x200#16 0x00E0#16) 16 0x002#16))
      (fun t => t == { withStack (at_ 0x200#16 0x00E0#16) 16 0x002#16 with
        status := .faulted, faultKind := .unimplementedInstruction, faultAddr := 0x200#16, faultWord := 0x00E0#16,
        pc := 0x202#16 }) := by decide

/-- X3, X4: a fetch outside memory comes before every other check. -/
theorem test_fetch_fault :
    nextIs (step (State.reset.setPc 0xFFF#16))
      (fun t => t == { State.reset with
        status := .faulted, faultKind := .outOfBoundsFetch, faultAddr := 0xFFF#16, faultWord := 0x0000#16, pc := 0xFFF#16 }) := by
  decide

/-- The codes of R25 and R71 on the status port. -/
theorem test_status_port :
    (State.reset.raise .unimplementedInstruction 0x200#16 0x00E0#16).statusPort =
      { status := 2#2, faultKind := 4#3, faultAddr := 0x200#16, faultWord := 0x00E0#16 } := by decide

/-- R82 on X1: after the fault the host reads the bytes that faulted, and an unloaded one (R87). -/
theorem test_host_reads_memory_after_fault :
    nextIs (step (at_ 0x200#16 0x00E0#16))
      (fun t => t.statusPort.status == 2#2 && t.readOut.byteAt 0x201#12 == 0xE0#8 && t.readOut.byteAt 0x202#12 == 0x00#8) := by
  decide

/-! ## The host -/

/-- R89: loads, in any order, then a step that runs the loaded word; P1's first step with `V[0] = 6`. -/
theorem test_host_load_and_step :
    (match System.afterReset.acts [.loadMem 0x001 0x00#8, .loadMem 0x000 0x21#8, .loadReg 0x0#4 6#8, .step] with
      | .next sys => sys.phase == .run && sys.state.readV 0x0#4 == 6#8 && sys.state.pc == 0x100#16 && sys.state.readS 0 == 0x002#16
      | .fault _ => false
      | .refused _ => false) = true := by decide

/-- R89, K10: after the first step a register load is ignored and a memory load refused; a byte at 0x1000 does not exist. -/
theorem test_host_loads_refused :
    hostLoadReg 0x0#4 6#8 { state := State.reset, phase := .run } = .next { state := State.reset, phase := .run } ∧
    hostLoadMem 0x000 0x21#8 { state := State.reset, phase := .run } = .refused .memoryLoadAfterFirstStep ∧
    hostLoadMem 0x1000 0x21#8 System.afterReset = .fault (.noSuchMemoryByte 0x1000) := ⟨rfl, rfl, rfl⟩

/-! ## Witnesses: a state and operands that meet the hypotheses of each statement, at the ends of their ranges -/

theorem witness_DecodeOfEncodeIsTheInstruction :
    (Instr.call 0xFFF#12).wellFormed = true ∧ (Instr.add 0xF#4 0xF#4).wellFormed = true := by decide

theorem witness_EncodeOfDecodeIsTheWord :
    decodeWord 0x2FFF#16 = .ok (.call 0xFFF#12) ∧ decodeWord 0x8FF4#16 = .ok (.add 0xF#4 0xF#4) := by decide

theorem witness_OpcodeRowsAreDisjointAndDecideEveryWord :
    callRow ∈ opcodeRows ∧ 0x2FFF#16 &&& callRow.mask = callRow.pattern ∧
    (∀ r ∈ opcodeRows, 0x3000#16 &&& r.mask ≠ r.pattern) := by decide

theorem witness_AssemblyIsBoundedAndEncodesAsStated :
    (4095 ≤ 4095 ∧ 15 ≤ 15) ∧ (Asm.call 4096).wellFormed = false := by decide

theorem witness_FetchReadsTwoBytesHighFirst : (0x0FFE#16).toNat + 1 < 4096 ∧ (0x0FFF#16).toNat + 1 ≥ 4096 := by decide

theorem witness_StepRunsTheDecodedInstruction :
    (State.reset.setStatus .halted).status ≠ .running ∧
    ((State.reset.setPc 0x0FFF#16).status = .running ∧ (State.reset.setPc 0x0FFF#16).pc.toNat + 1 ≥ 4096) ∧
    ((at_ 0x0FFE#16 0x8014#16).status = .running ∧ (at_ 0x0FFE#16 0x8014#16).pc.toNat + 1 < 4096 ∧
      (at_ 0x0FFE#16 0x8014#16).imemRd 0xFFE#12 = 0x80#8 ∧ (at_ 0x0FFE#16 0x8014#16).imemRd 0xFFF#12 = 0x14#8 ∧
      decodeBytes [0x80#8, 0x14#8] = .ok (.add 0x0#4 0x1#4, []) ∧
      decodeBytes [0x00#8, 0xE0#8] = .error (.illegalWord 0x00E0#16 .family0)) := by decide

theorem witness_AdvanceComesBeforeDispatchAndNeverWraps :
    (at_ 0x0FFE#16 0x8014#16).status = .running ∧
    (at_ 0x0FFE#16 0x8014#16).fetch (at_ 0x0FFE#16 0x8014#16).pc = some 0x8014#16 ∧
    decodeWord 0x8014#16 = .ok (.add 0x0#4 0x1#4) ∧ decodeWord 0x00E0#16 = .error .family0 ∧
    (State.reset.setPc 0x0FFF#16).fetch (State.reset.setPc 0x0FFF#16).pc = none := by decide

theorem witness_StatusChangesOnlyAsStated :
    (∃ t, step (at_ 0x004#16 0x0000#16) = .next t ∧ (at_ 0x004#16 0x0000#16).nextInstr = some .halt) ∧
    (State.reset.setPc 0x0FFF#16).stepFaults ∧
    (∃ sys', System.act { state := State.reset.setStatus .halted, phase := .run } .step = .next sys') :=
  ⟨⟨_, rfl, by decide⟩, .inl (by decide), _, rfl⟩

theorem witness_OnlyAdvanceCallAndRetChangePc :
    ∃ t, step (at_ 0x000#16 0x2100#16) = .next t ∧ t.pc ≠ (at_ 0x000#16 0x2100#16).pc :=
  ⟨_, rfl, by decide⟩

theorem witness_RunEndsOnlyByHaltOrFault :
    ∃ t, (at_ 0x004#16 0x0000#16).status = .running ∧ step (at_ 0x004#16 0x0000#16) = .next t ∧ t.status ≠ .running :=
  ⟨_, by decide, rfl, by decide⟩

theorem witness_StoppedBlockNeverChanges : (State.reset.setStatus .faulted).status ≠ .running := by decide

theorem witness_HaltCompletesChangingOnlyStatus :
    (at_ 0xFFE#16 0x0000#16).status = .running ∧ (at_ 0xFFE#16 0x0000#16).nextInstr = some .halt := by decide

theorem witness_CallPushesReturnAddressAndJumps :
    (State.reset.setPc 0x012#16).pc = 0x010#16 + 2#16 ∧ 0x2500#16 = encode (.call 0x500#12) ∧
    (withStack State.reset 15 0x000#16).SP.val < 16 ∧ (withStack State.reset 16 0x000#16).SP.val = 16 := by decide

theorem witness_CallTargetIsAbsoluteAndZeroExtended : (withStack State.reset 15 0x000#16).SP.val < 16 := by decide

theorem witness_RetPopsTheNewestReturnAddress :
    (withStack State.reset 16 0xABC#16).SP.val = (15 : Fin 16).val + 1 ∧
    (withStack State.reset 1 0xABC#16).SP.val = (0 : Fin 16).val + 1 := by decide

theorem witness_RetOnEmptyStackUnderflows :
    (State.reset.setPc 0x012#16).pc = 0x010#16 + 2#16 ∧ (State.reset.setPc 0x012#16).SP.val = 0 := by decide

theorem witness_StackOverflowRecordsTheCall :
    (withStack (at_ 0x010#16 0x2500#16) 16 0x002#16).status = .running ∧
    (withStack (at_ 0x010#16 0x2500#16) 16 0x002#16).fetch 0x010#16 = some 0x2500#16 ∧
    decodeWord 0x2500#16 = .ok (.call 0x500#12) ∧ (withStack (at_ 0x010#16 0x2500#16) 15 0x002#16).SP.val < 16 := by decide

theorem witness_StackUnderflowRecordsTheRet :
    (at_ 0x000#16 0x00EE#16).status = .running ∧ (at_ 0x000#16 0x00EE#16).nextInstr = some .ret ∧
    (at_ 0x000#16 0x00EE#16).SP.val = 0 ∧ 0 < (withStack (at_ 0x000#16 0x00EE#16) 1 0x002#16).SP.val := by decide

theorem witness_ControlInstructionsFrame :
    (∃ t, exec .halt State.reset = .next t) ∧ (∃ t, exec .ret (withStack State.reset 1 0x002#16) = .next t) ∧
    (∃ t, exec .ret State.reset = .next t) ∧ (∃ t, exec (.call 0x100#12) (withStack State.reset 15 0x002#16) = .next t) ∧
    (∃ t, exec (.call 0x100#12) (withStack State.reset 16 0x002#16) = .next t) :=
  ⟨⟨_, rfl⟩, ⟨_, rfl⟩, ⟨_, rfl⟩, ⟨_, rfl⟩, ⟨_, rfl⟩⟩

theorem witness_AddWritesSumThenCarry : (0xE#4 : RegIx) ≠ 0xF#4 := by decide

theorem witness_AddCarryIsExact :
    (0x2#4 : RegIx) ≠ 0xF#4 ∧ ∃ t, exec (.add 0x2#4 0x2#4) (State.reset.writeV 0x2#4 128#8) = .next t :=
  ⟨by decide, _, rfl⟩

theorem witness_AddFrame : ∃ t, exec (.add 0xF#4 0x3#4) State.reset = .next t := ⟨_, rfl⟩

theorem witness_VFIsZeroOrOneOnceAnAddHasRun :
    (∃ t, exec (.add 0xF#4 0x3#4) State.reset = .next t) ∧
    (at_ 0x000#16 0x8014#16).readV 0xF#4 = 0#8 ∧ ∃ t, runSteps 1 (at_ 0x000#16 0x8014#16) = .next t :=
  ⟨⟨_, rfl⟩, by decide, _, rfl⟩

theorem witness_FetchOutsideMemoryFaultsBeforeTheAdvance :
    (State.reset.setPc 0x0FFF#16).status = .running ∧ (State.reset.setPc 0x0FFF#16).pc.toNat ≥ 0x0FFF ∧
    (State.reset.setPc 0xFFFF#16).pc.toNat ≥ 0x0FFF := by decide

theorem witness_IllegalWordRaisesUnimplementedInstruction :
    (at_ 0xFFE#16 0x00E0#16).status = .running ∧ (at_ 0xFFE#16 0x00E0#16).fetch 0xFFE#16 = some 0x00E0#16 ∧
    (∀ r ∈ opcodeRows, 0x00E0#16 &&& r.mask ≠ r.pattern) := by decide

theorem witness_FaultKindTellsTheFailingCheck :
    (at_ 0x200#16 0x1234#16).status = .running ∧ (at_ 0x200#16 0x1234#16).faultKind = .none ∧
    ∃ t, step (at_ 0x200#16 0x1234#16) = .next t :=
  ⟨by decide, by decide, _, rfl⟩

theorem witness_FaultsArePrecise :
    (∃ t, step (at_ 0x200#16 0x1234#16) = .next t ∧ t.status = .faulted ∧ t.faultKind ≠ .outOfBoundsFetch) ∧
    (∃ t, step (State.reset.setPc 0x0FFF#16) = .next t ∧ t.status = .faulted ∧ t.faultKind = .outOfBoundsFetch) :=
  ⟨⟨_, rfl, by decide, by decide⟩, _, rfl, by decide, by decide⟩

theorem witness_FaultIsTerminalUntilReset :
    ∃ sys', HostAction.reset ∉ [HostAction.loadPc 0x000#16, .step] ∧
      System.acts { state := State.reset.raise .stackOverflow 0x010#16 0x2500#16, phase := .run } [.loadPc 0x000#16, .step] = .next sys' ∧
      (State.reset.raise .stackOverflow 0x010#16 0x2500#16).status = .faulted :=
  ⟨_, by decide, rfl, rfl⟩

theorem witness_ResetSetsEveryPieceOfState : (0x0FFE#16).toNat + 1 < 4096 := by decide

theorem witness_LoadsWriteOnlyTheirPlaceInTheLoadPhase :
    State.reset.M.wf = true ∧ (4096 ≥ 4096) ∧ (∃ sys', System.act System.afterReset .step = .next sys') :=
  ⟨by decide, by decide, _, rfl⟩

theorem witness_LoadsAfterTheFirstStepChangeNothing :
    ∃ sys', System.act { state := at_ 0x000#16 0x8014#16, phase := .run } .step = .next sys' := ⟨_, rfl⟩

theorem witness_NoRunChangesMemory : ∃ t, runSteps 2 (at_ 0x000#16 0x8014#16) = .next t := ⟨_, rfl⟩

/-- H4 and H2: the loop stops at the HALT after one pass; and a list of host actions with loads between its steps. -/
theorem witness_PausingARunChangesNothing :
    (∃ t, runLoop 1 (at_ 0x000#16 0x0000#16) = .next t ∧ t.status ≠ .running) ∧
    (∀ act ∈ [HostAction.step, .loadPc 0x000#16, .loadReg 0x0#4 1#8, .step],
      act = .step ∨ (∃ i v, act = .loadReg i v) ∨ ∃ v, act = .loadPc v) :=
  ⟨⟨_, rfl, by decide⟩, by simp⟩

theorem witness_HostReadsWhatTheFaultLeft :
    ∃ sys', (at_ 0x200#16 0x00E0#16).status = .running ∧
      System.act { state := at_ 0x200#16 0x00E0#16, phase := .load } .step = .next sys' ∧ sys'.state.status = .faulted ∧
      ∃ sys'', sys'.act .step = .next sys'' :=
  ⟨_, by decide, rfl, by decide, _, rfl⟩

/-- The same memory reached by two orders of loads. -/
theorem witness_HostReadsTheWholeState :
    ((State.reset.writeM 0x000#12 1#8).writeM 0xFFF#12 2#8).statusPort =
      ((State.reset.writeM 0xFFF#12 2#8).writeM 0x000#12 1#8).statusPort ∧
    ((State.reset.writeM 0x000#12 1#8).writeM 0xFFF#12 2#8).readOut =
      ((State.reset.writeM 0xFFF#12 2#8).writeM 0x000#12 1#8).readOut ∧
    ((State.reset.writeM 0x000#12 1#8).writeM 0xFFF#12 2#8).Inv :=
  ⟨by decide, by decide, by decide, ⟨by decide, by decide⟩, by unfold State.liveReturnsBounded; decide⟩

/-- A running state with a live slot at its bound meets the invariant. -/
theorem witness_invariant : (withStack (at_ 0x300#16 0x00EE#16) 16 0x1000#16).Inv :=
  ⟨by decide, ⟨by decide, by decide⟩, by unfold State.liveReturnsBounded; decide⟩

theorem witness_EveryStepKeepsTheInvariant : ∃ t, step (withStack (at_ 0x300#16 0x00EE#16) 16 0x1000#16) = .next t := ⟨_, rfl⟩

theorem witness_EveryHostActionKeepsTheInvariant :
    ∃ sys', System.act { state := withStack (at_ 0x300#16 0x00EE#16) 16 0x1000#16, phase := .load } (.loadMem 0xFFF 0x01#8) =
      .next sys' := ⟨_, rfl⟩

/-- T4: a return to 0x1000, the bound itself. -/
theorem witness_PcStaysWithinMemoryOrFaults :
    ∃ t, (withStack (at_ 0x300#16 0x00EE#16) 1 0x1000#16).status = .running ∧
      step (withStack (at_ 0x300#16 0x00EE#16) 1 0x1000#16) = .next t ∧ t.pc.toNat = 0x1000 :=
  ⟨_, by decide, rfl, by decide⟩

/-- Two states that differ in a dead slot only, one step on. -/
theorem witness_StaleSlotsAreNeverRead :
    (∀ j : Fin 16, j.val < (withStack (at_ 0x300#16 0x00EE#16) 1 0x002#16).SP.val →
      (withStack (at_ 0x300#16 0x00EE#16) 1 0x002#16).readS j =
        State.readS { withStack (at_ 0x300#16 0x00EE#16) 1 0x002#16 with
          S := (withStack (at_ 0x300#16 0x00EE#16) 1 0x002#16).S.set 1 0xBEEF#16 } j) ∧
    (∃ t, runSteps 1 (withStack (at_ 0x300#16 0x00EE#16) 1 0x002#16) = .next t) ∧
    (∃ t, runSteps 1 { withStack (at_ 0x300#16 0x00EE#16) 1 0x002#16 with
      S := (withStack (at_ 0x300#16 0x00EE#16) 1 0x002#16).S.set 1 0xBEEF#16 } = .next t) :=
  ⟨by decide, ⟨_, rfl⟩, _, rfl⟩

theorem witness_RegistersNeverSteerControl :
    (∃ t, runSteps 1 (at_ 0x000#16 0x8014#16) = .next t) ∧
    (∃ t, runSteps 1 { at_ 0x000#16 0x8014#16 with V := Vector.replicate 16 0xFF#8 } = .next t) :=
  ⟨⟨_, rfl⟩, _, rfl⟩

/-- CALL 0x300 at 0x000; at 0x300 CALL 0x400, then RET; at 0x400 RET: the outer call's return is the third step after it. -/
def nested : State := ((at_ 0x000#16 0x2300#16).placeWord 0x300#16 0x2400#16 |>.placeWord 0x302#16 0x00EE#16).placeWord 0x400#16 0x00EE#16

/-- The inner RET is reached with depth 2, so the first RET of depth 1 is the outer one. -/
theorem witness_CallAndReturnPairUp :
    nested.status = .running ∧ nested.nextInstr = some (.call 0x300#12) ∧ nested.SP.val < 16 ∧
    ∃ r t, runSteps (2 + 1) nested = .next r ∧ r.status = .running ∧ r.nextInstr = some .ret ∧ r.SP.val = nested.SP.val + 1 ∧
      (∀ m u, m < 2 → runSteps (m + 1) nested = .next u → ¬ (u.nextInstr = some .ret ∧ u.SP.val = nested.SP.val + 1)) ∧
      step r = .next t := by
  refine ⟨by decide, by decide, by decide, _, _, rfl, by decide, by decide, by decide, ?_, rfl⟩
  intro m u hm hu
  have hm' : m = 0 ∨ m = 1 := by omega
  rcases hm' with rfl | rfl <;> cases hu <;> decide

theorem witness_EveryRunEnds :
    (at_ 0x000#16 0x2000#16).status = .running ∧ (at_ 0x000#16 0x2000#16).SP.val = 0 := by decide

theorem witness_LoadedStateIsWhatTheFirstStepRunsFrom :
    (∀ act ∈ [HostAction.loadMem 0x000 0x21#8, .loadPc 0x000#16], act ≠ HostAction.step ∧ act ≠ HostAction.reset) ∧
    ∃ sys, System.acts System.afterReset [.loadMem 0x000 0x21#8, .loadPc 0x000#16] = .next sys :=
  ⟨by decide, _, rfl⟩

end Sys2Proof.Tests
end

/-! PROOFS. The run state `status` (spec/10_state.md R25, R26): the fault conditions by the instruction the step dispatches, what
a step and a host load do to `status`, and O12. -/

namespace Sys2Proof.Machine

/-! ## The fault conditions, by the next instruction (R72 to R75) -/

theorem State.nextInstr_eq_none_of_fetch {s : State} (h : s.fetch s.pc = none) : s.nextInstr = none := by
  simp [State.nextInstr, h]

theorem State.nextInstr_eq_none_of_illegal {s : State} {w : Word} {c : IllegalClass} (hf : s.fetch s.pc = some w)
    (hd : decodeWord w = .error c) : s.nextInstr = none := by
  simp [State.nextInstr, hf, hd]

/-- A step with no instruction to dispatch faults (R72, R75); one with an instruction faults by the stack check alone, which only
CALL and RET have (R73, R74). -/
theorem State.stepFaults_iff (s : State) :
    s.stepFaults ↔ s.nextInstr = none ∨ (∃ nnn, s.nextInstr = some (.call nnn) ∧ s.SP.val = 16) ∨
      (s.nextInstr = some .ret ∧ s.SP.val = 0) := by
  have outside : s.pc.toNat + 1 ≥ 4096 → s.nextInstr = none := fun h =>
    State.nextInstr_eq_none_of_fetch ((s.fetch_eq_none_iff s.pc).mpr h)
  constructor
  · rintro (h | ⟨-, h⟩ | h)
    · exact .inl (outside h)
    · exact .inl h
    · exact .inr h
  · rintro (h | h)
    · rcases Nat.lt_or_ge (s.pc.toNat + 1) 4096 with hpc | hpc
      · exact .inr (.inl ⟨hpc, h⟩)
      · exact .inl hpc
    · exact .inr (.inr h)

theorem State.not_stepFaults_of_halt {s : State} (h : s.nextInstr = some .halt) : ¬ s.stepFaults := by
  simp [State.stepFaults_iff, h]

/-! ## What a step does to `status` (R26) -/

/-- A step in RUNNING ends HALTED by HALT, FAULTED by a fault condition, and RUNNING in every other case. -/
theorem step_status_cases {s t : State} (hs : s.status = .running) (ht : step s = .next t) :
    (s.nextInstr = some .halt ∧ t.status = .halted) ∨
    (s.stepFaults ∧ t.status = .faulted) ∨
    (s.nextInstr ≠ some .halt ∧ ¬ s.stepFaults ∧ t.status = .running) := by
  rcases step_cases hs with ⟨hf, e⟩ | ⟨w, c, hf, hd, e⟩ | ⟨w, i, -, -, hi, e⟩ <;> rw [e] at ht
  · cases ht
    exact .inr (.inl ⟨s.stepFaults_iff.mpr (.inl (State.nextInstr_eq_none_of_fetch hf)), rfl⟩)
  · cases ht
    exact .inr (.inl ⟨s.stepFaults_iff.mpr (.inl (State.nextInstr_eq_none_of_illegal hf hd)), rfl⟩)
  · cases i with
    | halt =>
      cases ht
      exact .inl ⟨hi, rfl⟩
    | ret =>
      rcases execRet_cases s.advance with ⟨hSP, e⟩ | ⟨k, hk, e⟩ <;> cases e.symm.trans ht
      · exact .inr (.inl ⟨s.stepFaults_iff.mpr (.inr (.inr ⟨hi, hSP⟩)), rfl⟩)
      · have hSP : s.SP.val ≠ 0 := fun h => Nat.succ_ne_zero k.val (hk.trans h)
        exact .inr (.inr ⟨by simp [hi], by simpa [State.stepFaults_iff, hi] using hSP, hs⟩)
    | call nnn =>
      rcases execCall_cases nnn s.advance with ⟨hSP, e⟩ | ⟨hlt, e⟩ <;> cases e.symm.trans ht
      · exact .inr (.inl ⟨s.stepFaults_iff.mpr (.inr (.inl ⟨nnn, hi, hSP⟩)), rfl⟩)
      · have hSP : s.SP.val ≠ 16 := Nat.ne_of_lt hlt
        exact .inr (.inr ⟨by simp [hi], by simpa [State.stepFaults_iff, hi] using hSP, hs⟩)
    | add x y =>
      cases (execAdd_eq x y s.advance).symm.trans ht
      exact .inr (.inr ⟨by simp [hi], by simp [State.stepFaults_iff, hi], hs⟩)

/-- A step in HALTED or FAULTED leaves `status` as it is (R57). -/
theorem step_status_of_stopped {s t : State} (hs : s.stopped) (ht : step s = .next t) : t.status = s.status := by
  cases (step_of_stopped hs).symm.trans ht
  rfl

/-! ## What a host action does to `status` (R26, R89) -/

/-- No load writes `status`, in either phase. -/
theorem System.act_load_status {sys sys' : System} {act : HostAction} (hreset : act ≠ .reset) (hstep : act ≠ .step)
    (h : sys.act act = .next sys') : sys'.state.status = sys.state.status := by
  obtain ⟨s, phase⟩ := sys
  cases act with
  | reset => exact absurd rfl hreset
  | step => exact absurd rfl hstep
  | loadReg i v => cases phase <;> cases h <;> rfl
  | loadPc v => cases phase <;> cases h <;> rfl
  | loadMem a b =>
    cases phase with
    | run => cases h
    | load =>
      simp only [System.act, hostLoadMem] at h
      split at h <;> cases h
      rfl

/-- Only a reset takes a stopped block out of its run state: a step leaves the block as it is (R57), and no load writes
`status`. -/
theorem System.act_status_of_stopped {sys sys' : System} {act : HostAction} (hreset : act ≠ .reset)
    (hs : sys.state.stopped) (h : sys.act act = .next sys') : sys'.state.status = sys.state.status := by
  by_cases hstep : act = .step
  · subst hstep
    cases (System.act_step_of_next (step_of_stopped hs)).symm.trans h
    rfl
  · exact System.act_load_status hreset hstep h

/-- Settles O12: the three cases of a running step exclude each other, and a stopped block keeps its run state. -/
theorem statusChangesOnlyAsStated : Obligations.StatusChangesOnlyAsStated := by
  refine ⟨fun sys => ⟨_, sys.act_reset, rfl⟩, fun s t ht => ⟨?halt, ?fault, ?other, ?halted, ?faulted⟩,
    fun _ _ _ hreset hs h => System.act_status_of_stopped hreset hs h⟩
  case halt =>
    intro hs hi
    rcases step_status_cases hs ht with ⟨-, h⟩ | ⟨hf, -⟩ | ⟨hn, -, -⟩
    · exact h
    · exact absurd hf (State.not_stepFaults_of_halt hi)
    · exact absurd hi hn
  case fault =>
    intro hs hf
    rcases step_status_cases hs ht with ⟨hi, -⟩ | ⟨-, h⟩ | ⟨-, hn, -⟩
    · exact absurd hf (State.not_stepFaults_of_halt hi)
    · exact h
    · exact absurd hf hn
  case other =>
    intro hs hi hf
    rcases step_status_cases hs ht with ⟨h, -⟩ | ⟨h, -⟩ | ⟨-, -, h⟩
    · exact absurd h hi
    · exact absurd h hf
    · exact h
  case halted =>
    intro hs
    exact (step_status_of_stopped (by simp [State.stopped, hs]) ht).trans hs
  case faulted =>
    intro hs
    exact (step_status_of_stopped (by simp [State.stopped, hs]) ht).trans hs

end Sys2Proof.Machine

/-! PROOFS. The fetch (spec/20_memory.md R35, R37): the two bytes it reads, addressed by numbers, and O8. -/

namespace Sys2Proof.Machine

/-- Below the bound of R37 neither address of a fetch wraps: the port is read at the numbers `a` and `a + 1`. -/
theorem State.fetch_of_lt (s : State) {a : Word} (h : a.toNat + 1 < 4096) :
    s.fetch a = some (wordOfBytes (s.imemRd (BitVec.ofNat 12 a.toNat)) (s.imemRd (BitVec.ofNat 12 (a.toNat + 1)))) := by
  have hf : fetchable a = true := decide_eq_true h
  have low : a.setWidth 12 = BitVec.ofNat 12 a.toNat := (BitVec.ofNat_toNat 12 a).symm
  have high : (a + 1#16).setWidth 12 = BitVec.ofNat 12 (a.toNat + 1) := by bv_omega
  rw [State.fetch, if_pos hf, low, high]

/-- Settles O8: the word fetched is the byte at `a` followed by the byte at `a + 1`, and a word of two bytes is the high byte
times 256 plus the low byte. -/
theorem fetchReadsTwoBytesHighFirst : Obligations.FetchReadsTwoBytesHighFirst := by
  intro s a
  exact ⟨fun h => ⟨_, s.fetch_of_lt h, wordOfBytes_toNat _ _⟩, (s.fetch_eq_none_iff a).mpr⟩

end Sys2Proof.Machine

/-! PROOFS. The fields of a word and the rows of the opcode map (spec/30_encoding.md R47, R50, R51): O1 and O3. -/

namespace Sys2Proof

/-! ## Rows -/

theorem Instr.row_mem_opcodeRows (i : Instr) : i.row ∈ opcodeRows := by
  cases i <;> simp [Instr.row, opcodeRows]

/-- A row whose mask is full matches its own pattern and no other word (R50). -/
theorem OpcodeRow.matches_iff_of_full_mask {r : OpcodeRow} (h : r.mask = 0xFFFF#16) (w : Word) :
    w &&& r.mask = r.pattern ↔ w = r.pattern := by
  have full : w &&& 0xFFFF#16 = w := BitVec.and_allOnes
  rw [h, full]

/-- Two rows that one word matches have patterns that agree wherever both masks look. -/
theorem OpcodeRow.patterns_agree {w : Word} {r r' : OpcodeRow} (h : w &&& r.mask = r.pattern)
    (h' : w &&& r'.mask = r'.pattern) : r.pattern &&& r'.mask = r'.pattern &&& r.mask := by
  rw [← h, ← h', BitVec.and_assoc, BitVec.and_assoc, BitVec.and_comm r.mask]

/-- The patterns of two different rows differ at a bit that both masks look at (R50). -/
theorem opcodeRows_eq_of_patterns_agree :
    ∀ r ∈ opcodeRows, ∀ r' ∈ opcodeRows, r.pattern &&& r'.mask = r'.pattern &&& r.mask → r = r' := by
  decide

/-- What the decoder answers, by rows: an instruction whose row the word matches, or an error where no row matches (R50). -/
theorem decodeWord_row_cases (w : Word) :
    (∃ i, decodeWord w = .ok i ∧ w &&& i.row.mask = i.row.pattern) ∨
    (∃ c, decodeWord w = .error c ∧ ∀ r ∈ opcodeRows, w &&& r.mask ≠ r.pattern) := by
  have hhalt := OpcodeRow.matches_iff_of_full_mask (r := haltRow) rfl w
  have hret := OpcodeRow.matches_iff_of_full_mask (r := retRow) rfl w
  rcases decodeWord_cases w with ⟨h, e⟩ | ⟨h, e⟩ | ⟨h, e⟩ | ⟨h, e⟩ | ⟨h0, h1, h2, h3, e⟩
  · exact .inl ⟨_, e, hhalt.mpr h⟩
  · exact .inl ⟨_, e, hret.mpr h⟩
  · exact .inl ⟨_, e, h⟩
  · exact .inl ⟨_, e, h⟩
  · refine .inr ⟨_, e, fun r hr => ?_⟩
    simp only [opcodeRows, List.mem_cons, List.not_mem_nil, or_false] at hr
    rcases hr with rfl | rfl | rfl | rfl
    · exact mt hhalt.mp h0
    · exact mt hret.mp h1
    · exact h2
    · exact h3

/-- A decoded word matches the row of its instruction (R50). -/
theorem row_matches_of_decodeWord_ok {w : Word} {i : Instr} (h : decodeWord w = .ok i) :
    w &&& i.row.mask = i.row.pattern := by
  rcases decodeWord_row_cases w with ⟨j, e, hj⟩ | ⟨c, e, -⟩ <;> cases e.symm.trans h
  exact hj

/-- A word is illegal exactly where it matches no row (R50). -/
theorem decodeWord_error_iff (w : Word) :
    (∃ c, decodeWord w = .error c) ↔ ∀ r ∈ opcodeRows, w &&& r.mask ≠ r.pattern := by
  rcases decodeWord_row_cases w with ⟨i, e, hi⟩ | ⟨c, e, unmatched⟩
  · exact ⟨fun ⟨_, h⟩ => (by cases e.symm.trans h), fun h => absurd hi (h i.row i.row_mem_opcodeRows)⟩
  · exact ⟨fun _ => unmatched, fun _ => ⟨c, e⟩⟩

/-- Settles O3: one word in two rows would make their patterns agree where both masks look, which no two rows do. -/
theorem opcodeRowsAreDisjointAndDecideEveryWord : Obligations.OpcodeRowsAreDisjointAndDecideEveryWord := by
  refine ⟨fun w r r' hr hr' h h' => ?disjoint, fun w i h => ?decoded, decodeWord_error_iff, rfl, rfl, ?families⟩
  case disjoint => exact opcodeRows_eq_of_patterns_agree r hr r' hr' (OpcodeRow.patterns_agree h h')
  case decoded => exact ⟨i.row_mem_opcodeRows, row_matches_of_decodeWord_ok h⟩
  case families => decide

/-! ## Fields -/

/-- Settles O1: a mask of low ones is a remainder, and a shift to the right a quotient. -/
theorem fieldsAreTheBitSlices : Obligations.FieldsAreTheBitSlices := by
  intro w
  have mask4 (n : Nat) : n &&& 0xF = n % 16 := Nat.and_two_pow_sub_one_eq_mod n 4
  have mask12 (n : Nat) : n &&& 0xFFF = n % 4096 := Nat.and_two_pow_sub_one_eq_mod n 12
  have top : w.toNat / 4096 < 16 := Nat.div_lt_of_lt_mul w.isLt
  simp only [splitFields_o_toNat, splitFields_x_toNat, splitFields_y_toNat, splitFields_d_toNat, splitFields_nnn_toNat,
    mask4, mask12, Nat.shiftRight_eq_div_pow, Nat.mod_eq_of_lt top, Nat.reducePow, and_self]

end Sys2Proof

/-! PROOFS. CALL's operand (spec/30_encoding.md R48): O18. -/

namespace Sys2Proof.Machine

theorem exec_call (nnn : Addr) (s : State) : exec (.call nnn) s = execCall nnn s := rfl

/-- The target is the operand itself as a number: neither sign-extended nor scaled (R48). -/
theorem callTarget_toNat (nnn : Addr) : (callTarget nnn).toNat = nnn.toNat :=
  BitVec.toNat_setWidth_of_le (by decide)

/-- Settles O18: below a full stack CALL goes to `callTarget nnn`, whatever `pc` it started from. -/
theorem callTargetIsAbsoluteAndZeroExtended : Obligations.CallTargetIsAbsoluteAndZeroExtended := by
  intro nnn s hSP
  rcases execCall_cases nnn s with ⟨full, -⟩ | ⟨_, e⟩
  · exact absurd full (Nat.ne_of_lt hSP)
  · have target := callTarget_toNat nnn
    exact ⟨_, (exec_call nnn s).trans e, target, target.trans_le (Nat.le_of_lt_succ nnn.isLt)⟩

end Sys2Proof.Machine

/-! PROOFS. Sequencing and CALL (spec/40_control.md R58, R59, R61, R63): the step by what it fetches and decodes, what moves `pc`,
and O13, O17, O9 and O10. -/

namespace Sys2Proof.Machine

/-! ## The step, by what is fetched and decoded (R58) -/

section Step

variable {s : State}

theorem step_of_fetch_none (hs : s.status = .running) (hf : s.fetch s.pc = none) :
    step s = .next (s.raise .outOfBoundsFetch s.pc 0x0000#16) := by
  rw [step_of_running hs, runStep, hf]

theorem step_of_fetch_some {w : Word} (hs : s.status = .running) (hf : s.fetch s.pc = some w) :
    step s = runWord s s.pc w := by
  rw [step_of_running hs, runStep, hf]

theorem step_of_decode_ok {w : Word} {i : Instr} (hs : s.status = .running) (hf : s.fetch s.pc = some w)
    (hd : decodeWord w = .ok i) : step s = exec i s.advance := by
  rw [step_of_fetch_some hs hf, runWord, hd]

theorem step_of_decode_error {w : Word} {c : IllegalClass} (hs : s.status = .running) (hf : s.fetch s.pc = some w)
    (hd : decodeWord w = .error c) : step s = .next (s.advance.raise .unimplementedInstruction s.pc w) := by
  rw [step_of_fetch_some hs hf, runWord, hd]

end Step

/-! ## What moves `pc` (R63) -/

/-- After the advance only CALL and RET move `pc`, and only where their stack check passes. -/
theorem exec_pc_cases {i : Instr} {s t : State} (h : exec i s = .next t) :
    t.pc = s.pc ∨
    (∃ nnn, i = .call nnn ∧ s.SP.val < 16 ∧ t.pc = callTarget nnn) ∨
    (i = .ret ∧ ∃ k : Fin 16, k.val + 1 = s.SP.val ∧ t.pc = s.readS k) := by
  cases i with
  | halt =>
    cases h
    exact .inl rfl
  | ret =>
    rcases execRet_cases s with ⟨-, e⟩ | ⟨k, hk, e⟩ <;> cases e.symm.trans h
    · exact .inl rfl
    · exact .inr (.inr ⟨rfl, k, hk, rfl⟩)
  | call nnn =>
    rcases execCall_cases nnn s with ⟨-, e⟩ | ⟨hSP, e⟩ <;> cases e.symm.trans h
    · exact .inl rfl
    · exact .inr (.inl ⟨nnn, rfl, hSP, rfl⟩)
  | add x y =>
    cases h
    exact .inl rfl

/-- Settles O13: a stopped block and a failed fetch keep `pc`, an illegal word advances it, and a handler moves it from the
advance only as `exec_pc_cases` says. -/
theorem onlyAdvanceCallAndRetChangePc : Obligations.OnlyAdvanceCallAndRetChangePc := by
  intro s t ht moved
  by_cases hs : s.status = .running
  · rcases step_cases hs with ⟨-, e⟩ | ⟨w, c, -, -, e⟩ | ⟨w, i, -, -, hi, e⟩
    · cases e.symm.trans ht
      exact absurd rfl moved
    · cases e.symm.trans ht
      exact .inl rfl
    · rcases exec_pc_cases (e.symm.trans ht) with hpc | ⟨nnn, rfl, hSP, hpc⟩ | ⟨rfl, k, hk, hpc⟩
      · exact .inl hpc
      · exact .inr (.inl ⟨nnn, hi, hSP, hpc ▸ callTarget_toNat nnn⟩)
      · exact .inr (.inr ⟨hi, k, hk, hpc⟩)
  · cases (step_of_stopped hs).symm.trans ht
    exact absurd rfl moved

/-! ## CALL (R61) -/

theorem callTarget_eq_ofNat (nnn : Addr) : callTarget nnn = BitVec.ofNat 16 nnn.toNat :=
  (BitVec.ofNat_toNat 16 nnn).symm

theorem State.instrAddr_of_pc {s : State} {a : Word} (h : s.pc = a + 2#16) : s.instrAddr = a := by
  rw [State.instrAddr, h, BitVec.add_sub_cancel]

/-- The word of a CALL matches CALL's row, written as mask and pattern (R51). -/
theorem encode_call_matches (nnn : Addr) : encode (.call nnn) &&& 0xF000#16 = 0x2000#16 :=
  (OpcodeRow.accepts_iff callRow _).mp (Laws.EncodesInItsRow.call nnn).2

/-- Settles O17: the two cases of `execCall_cases`, with the return address `s.pc` and the recorded address `s.pc - 2` written
by the CALL's own address. -/
theorem callPushesReturnAddressAndJumps : Obligations.CallPushesReturnAddressAndJumps := by
  rintro nnn s a w hpc rfl
  refine ⟨⟨encode_call_toNat nnn, encode_call_matches nnn⟩, fun hSP => ?pushes, fun full => ?overflows⟩
  case pushes =>
    rcases execCall_cases nnn s with ⟨full, -⟩ | ⟨_, e⟩
    · exact absurd full (Nat.ne_of_lt hSP)
    · rw [exec_call, e, callTarget_eq_ofNat, hpc]
  case overflows =>
    rcases execCall_cases nnn s with ⟨-, e⟩ | ⟨hSP, -⟩
    · rw [exec_call, e, State.instrAddr_of_pc hpc]
      rfl
    · exact absurd full (Nat.ne_of_lt hSP)

/-! ## The step, by the two bytes at `pc` (R58) -/

theorem decodeWord_ok_of_decodeBytes {hi lo : Byte} {rest rest' : List Byte} {i : Instr}
    (h : decodeBytes (hi :: lo :: rest) = .ok (i, rest')) : decodeWord (wordOfBytes hi lo) = .ok i := by
  rw [decodeBytes_cons_cons] at h
  cases hd : decodeWord (wordOfBytes hi lo) <;> rw [hd] at h <;> cases h
  rfl

theorem decodeWord_error_of_decodeBytes {hi lo : Byte} {rest : List Byte} {w : Word} {c : IllegalClass}
    (h : decodeBytes (hi :: lo :: rest) = .error (.illegalWord w c)) :
    w = wordOfBytes hi lo ∧ decodeWord (wordOfBytes hi lo) = .error c := by
  rw [decodeBytes_cons_cons] at h
  cases hd : decodeWord (wordOfBytes hi lo) <;> rw [hd] at h <;> cases h
  exact ⟨rfl, rfl⟩

/-- Settles O9: below the bound of R37 the word fetched is that of the two bytes at `pc`, and the byte decoder answers as the
word decoder does. -/
theorem stepRunsTheDecodedInstruction : Obligations.StepRunsTheDecodedInstruction := by
  intro s
  refine ⟨step_of_stopped, fun hs hpc => step_of_fetch_none hs ((s.fetch_eq_none_iff s.pc).mpr hpc), ?_⟩
  rintro hi lo hs hpc rfl rfl
  have hf := s.fetch_of_lt hpc
  refine ⟨fun i _ hd => step_of_decode_ok hs hf (decodeWord_ok_of_decodeBytes hd), fun w c hd => ?_⟩
  obtain ⟨rfl, illegal⟩ := decodeWord_error_of_decodeBytes hd
  exact step_of_decode_error hs hf illegal

/-! ## The advance (R59) -/

theorem State.lt_of_fetch_eq_some {s : State} {a w : Word} (h : s.fetch a = some w) : a.toNat + 1 < 4096 :=
  (s.fetch_isSome_iff a).mp (h ▸ rfl)

/-- Settles O10: the bound of the fetch keeps the advance from wrapping, and the step at each outcome of the fetch and the
decoder is an equation above. -/
theorem advanceComesBeforeDispatchAndNeverWraps : Obligations.AdvanceComesBeforeDispatchAndNeverWraps := by
  intro s hs
  refine ⟨fun w hf => ?fetched, fun hf => ⟨_, step_of_fetch_none hs hf, rfl⟩⟩
  case fetched =>
    have bound := State.lt_of_fetch_eq_some hf
    have no_wrap : (s.pc + 2#16).toNat = s.pc.toNat + 2 := by bv_omega
    exact ⟨no_wrap, by omega, fun _ hd => step_of_decode_ok hs hf hd, fun _ hd => ⟨_, step_of_decode_error hs hf hd, rfl⟩⟩

end Sys2Proof.Machine

/-! PROOFS. The ALU's addition (spec/41_arithmetic.md R66): O24. -/

namespace Sys2Proof.Machine

/-- The carry bit as a number: the widening by which it reaches VF keeps its value (R66, R67). -/
theorem add8Carry_toNat (p q : Byte) : (add8Carry p q).toNat = if p.toNat + q.toNat > 255 then 1 else 0 :=
  calc (add8Carry p q).toNat
    _ = ((add8Carry p q).setWidth 8).toNat := (BitVec.toNat_setWidth_of_le (by decide)).symm
    _ = if p.toNat + q.toNat > 255 then 1 else 0 := add8Carry_setWidth_toNat p q

/-- Settles O24: the laws of the two outputs, each a function of `p` and `q` alone, so no carry-in can enter. -/
theorem aluAddsModulo256WithCarryOut : Obligations.AluAddsModulo256WithCarryOut :=
  fun p q => ⟨add8Sum_toNat p q, add8Carry_toNat p q⟩

end Sys2Proof.Machine

/-! PROOFS. Faults (spec/60_exceptions.md R73 to R75, R81, R83): what each faulting step records, what ends a run, and O31, O21,
O22, O14 and O34. -/

namespace Sys2Proof.Machine

/-! ## The step of HALT, CALL and RET, and what a faulting step records (R60 to R62, R72 to R75) -/

/-- A word that decodes to a CALL is the word that CALL encodes to, so a fault that records the one records the other (R51). -/
theorem encode_call_of_decodeWord {w : Word} {nnn : Addr} (h : decodeWord w = .ok (.call nnn)) :
    encode (.call nnn) = w := by
  rcases decodeWord_ranges w with ⟨-, e⟩ | ⟨-, e⟩ | ⟨low, high, e⟩ | ⟨-, -, -, e⟩ | ⟨-, -, -, -, e⟩ <;>
    cases e.symm.trans h
  apply BitVec.eq_of_toNat_eq
  rw [encode_call_toNat, splitFields_nnn_toNat]
  omega

theorem exec_ret (s : State) : exec .ret s = execRet s := rfl

section Step

variable {s : State}

theorem step_of_nextInstr {i : Instr} (hs : s.status = .running) (hi : s.nextInstr = some i) :
    step s = exec i s.advance := by
  obtain ⟨w, hf, hd⟩ := (s.nextInstr_eq_some_iff i).mp hi
  exact step_of_decode_ok hs hf hd

theorem step_of_halt (hs : s.status = .running) (hi : s.nextInstr = some .halt) :
    step s = .next (s.advance.setStatus .halted) :=
  step_of_nextInstr hs hi

/-- A CALL on a full stack raises Stack-Overflow with its own address and word (R73). -/
theorem step_of_call_full {nnn : Addr} (hs : s.status = .running) (hi : s.nextInstr = some (.call nnn))
    (full : s.SP.val = 16) : step s = .next (s.advance.raise .stackOverflow s.pc (encode (.call nnn))) := by
  rw [step_of_nextInstr hs hi, exec_call]
  rcases execCall_cases nnn s.advance with ⟨-, e⟩ | ⟨room, -⟩
  · rw [e, State.instrAddr_advance]
  · exact absurd full (Nat.ne_of_lt room)

theorem step_of_call_room {nnn : Addr} (hs : s.status = .running) (hi : s.nextInstr = some (.call nnn))
    (room : s.SP.val < 16) : ∃ t, step s = .next t ∧ t.status = .running := by
  rw [step_of_nextInstr hs hi, exec_call]
  rcases execCall_cases nnn s.advance with ⟨full, -⟩ | ⟨_, e⟩
  · exact absurd full (Nat.ne_of_lt room)
  · exact ⟨_, e, hs⟩

/-- A RET on an empty stack raises Stack-Underflow with its own address and word (R74). -/
theorem step_of_ret_empty (hs : s.status = .running) (hi : s.nextInstr = some .ret) (empty : s.SP.val = 0) :
    step s = .next (s.advance.raise .stackUnderflow s.pc 0x00EE#16) := by
  rw [step_of_nextInstr hs hi, exec_ret]
  rcases execRet_cases s.advance with ⟨-, e⟩ | ⟨k, live, -⟩
  · rw [e, State.instrAddr_advance]
    rfl
  · exact absurd (live.trans empty) (Nat.succ_ne_zero k.val)

theorem step_of_ret_live (hs : s.status = .running) (hi : s.nextInstr = some .ret) (live : 0 < s.SP.val) :
    ∃ t, step s = .next t ∧ t.status = .running := by
  rw [step_of_nextInstr hs hi, exec_ret]
  rcases execRet_cases s.advance with ⟨empty, -⟩ | ⟨_, _, e⟩
  · exact absurd empty (Nat.ne_of_gt live)
  · exact ⟨_, e, hs⟩

/-- A step with no instruction to dispatch raises Out-of-Bounds Fetch before the advance or Unimplemented-Instruction after it
(R72, R75). -/
theorem step_of_nextInstr_none (hs : s.status = .running) (hi : s.nextInstr = none) :
    step s = .next (s.raise .outOfBoundsFetch s.pc 0x0000#16) ∨
      ∃ w, step s = .next (s.advance.raise .unimplementedInstruction s.pc w) := by
  rcases step_cases hs with ⟨-, e⟩ | ⟨w, _, -, -, e⟩ | ⟨_, i, -, -, h, -⟩
  · exact .inl e
  · exact .inr ⟨w, e⟩
  · cases hi.symm.trans h

/-- Every fault condition records a kind that names a fault (R27, R71). -/
theorem faultKind_ne_none_of_stepFaults {t : State} (hs : s.status = .running) (hf : s.stepFaults)
    (ht : step s = .next t) : t.faultKind ≠ .none := by
  rcases s.stepFaults_iff.mp hf with hi | ⟨nnn, hi, full⟩ | ⟨hi, empty⟩
  · rcases step_of_nextInstr_none hs hi with e | ⟨w, e⟩ <;> cases e.symm.trans ht <;> simp
  · cases (step_of_call_full hs hi full).symm.trans ht
    simp
  · cases (step_of_ret_empty hs hi empty).symm.trans ht
    simp

end Step

/-- Settles O31: a word that matches no row decodes to an error, and the step at an error raises after the advance. -/
theorem illegalWordRaisesUnimplementedInstruction : Obligations.IllegalWordRaisesUnimplementedInstruction := by
  intro s w hs hf unmatched
  obtain ⟨c, hd⟩ := (decodeWord_error_iff w).mpr unmatched
  exact step_of_decode_error hs hf hd

/-- Settles O21: the word recorded is the CALL's encoding, which is the word fetched. -/
theorem stackOverflowRecordsTheCall : Obligations.StackOverflowRecordsTheCall := by
  intro s w nnn hs hf hd
  have hi := (s.nextInstr_eq_some_iff (.call nnn)).mpr ⟨w, hf, hd⟩
  exact ⟨fun full => ⟨_, step_of_call_full hs hi full, rfl, rfl, rfl, encode_call_of_decodeWord hd⟩,
    step_of_call_room hs hi⟩

/-- Settles O22: the step of a RET, by its stack check. -/
theorem stackUnderflowRecordsTheRet : Obligations.StackUnderflowRecordsTheRet := by
  intro s hs hi
  exact ⟨fun empty => ⟨_, step_of_ret_empty hs hi empty, rfl, rfl, rfl, rfl⟩, step_of_ret_live hs hi⟩

/-! ## What ends a run (R83) -/

/-- Settles O14: a step from RUNNING that does not stay there is a HALT's, which writes `status` and `pc` alone, or a faulting
one, which records a kind. -/
theorem runEndsOnlyByHaltOrFault : Obligations.RunEndsOnlyByHaltOrFault := by
  intro s t hs ht ended
  rcases step_status_cases hs ht with ⟨hi, halted⟩ | ⟨hf, faulted⟩ | ⟨-, -, running⟩
  · cases (step_of_halt hs hi).symm.trans ht
    exact .inl ⟨hi, halted, rfl, rfl, rfl⟩
  · exact .inr ⟨hf, faulted, faultKind_ne_none_of_stepFaults hs hf ht⟩
  · exact absurd running ended

/-! ## What leaves a fault (R81) -/

/-- A load writes registers, `pc` and memory, and nothing else of the state, in either phase (R89). -/
theorem System.act_load_frame {sys sys' : System} {act : HostAction} (hreset : act ≠ .reset) (hstep : act ≠ .step)
    (h : sys.act act = .next sys') : ∃ V pc M, sys'.state = { sys.state with V := V, pc := pc, M := M } := by
  obtain ⟨s, phase⟩ := sys
  cases act with
  | reset => exact absurd rfl hreset
  | step => exact absurd rfl hstep
  | loadReg i v => cases phase <;> cases h <;> exact ⟨_, _, _, rfl⟩
  | loadPc v => cases phase <;> cases h <;> exact ⟨_, _, _, rfl⟩
  | loadMem a b =>
    cases phase with
    | run => cases h
    | load =>
      simp only [System.act, hostLoadMem] at h
      split at h <;> cases h
      exact ⟨_, _, _, rfl⟩

/-- On a stopped block, whose steps do nothing (R57), every action but `reset` writes no more than a load. -/
theorem System.act_frame_of_stopped {sys sys' : System} {act : HostAction} (hreset : act ≠ .reset)
    (hs : sys.state.stopped) (h : sys.act act = .next sys') :
    ∃ V pc M, sys'.state = { sys.state with V := V, pc := pc, M := M } := by
  by_cases hstep : act = .step
  · subst hstep
    cases (System.act_step_of_next (step_of_stopped hs)).symm.trans h
    exact ⟨_, _, _, rfl⟩
  · exact System.act_load_frame hreset hstep h

/-- A list of actions goes through where its first action does and the others do from there. -/
theorem System.acts_cons_eq_next_iff {sys sys' : System} {act : HostAction} {acts : List HostAction} :
    sys.acts (act :: acts) = .next sys' ↔ ∃ mid, sys.act act = .next mid ∧ mid.acts acts = .next sys' := by
  rw [System.acts]
  cases sys.act act <;> simp

/-- No list of actions without a `reset` writes the stack, `status` or the fault record of a stopped block. -/
theorem System.acts_frame_of_stopped {sys sys' : System} {acts : List HostAction} (hreset : .reset ∉ acts)
    (hs : sys.state.stopped) (h : sys.acts acts = .next sys') :
    ∃ V pc M, sys'.state = { sys.state with V := V, pc := pc, M := M } := by
  induction acts generalizing sys with
  | nil =>
    cases h
    exact ⟨_, _, _, rfl⟩
  | cons act acts ih =>
    rw [List.mem_cons, not_or] at hreset
    obtain ⟨first, others⟩ := hreset
    obtain ⟨mid, hact, hacts⟩ := System.acts_cons_eq_next_iff.mp h
    obtain ⟨_, _, _, hmid⟩ := System.act_frame_of_stopped (Ne.symm first) hs hact
    obtain ⟨_, _, _, hend⟩ := ih others (by rw [hmid]; exact hs) hacts
    exact ⟨_, _, _, by rw [hend, hmid]⟩

/-- Settles O34: FAULTED is stopped, so only a reset writes `status` or the fault record. -/
theorem faultIsTerminalUntilReset : Obligations.FaultIsTerminalUntilReset := by
  intro sys faulted
  have hs : sys.state.stopped := by simp [State.stopped, faulted]
  refine ⟨step_of_stopped hs, fun acts sys' hreset h => ?_, sys.act_reset⟩
  obtain ⟨_, _, _, e⟩ := System.acts_frame_of_stopped hreset hs h
  rw [e]
  exact ⟨faulted, rfl, rfl, rfl⟩

end Sys2Proof.Machine

/-! PROOFS. The state after a reset (spec/70_reset_and_hazards.md R87, R88): O36. -/

namespace Sys2Proof.Machine

/-! ## What the reset state reads as (R31, R87) -/

@[simp] theorem State.readV_reset (r : RegIx) : State.reset.readV r = 0x00#8 := by
  simp [State.readV]

@[simp] theorem State.readS_reset (j : Fin 16) : State.reset.readS j = 0x0000#16 := by
  simp [State.readS]

@[simp] theorem State.imemRd_reset (a : Addr) : State.reset.imemRd a = 0x00#8 := by
  simp [State.imemRd]

/-- Two zero bytes make the zero word, wherever a fetch can read. -/
theorem State.fetch_reset {a : Word} (h : a.toNat + 1 < 4096) : State.reset.fetch a = some 0x0000#16 := by
  rw [State.fetch_of_lt _ h, State.imemRd_reset, State.imemRd_reset]
  rfl

/-- The zero word matches the first row of the opcode map (R51). -/
theorem decodeWord_zero : decodeWord 0x0000#16 = .ok .halt := rfl

/-- Settles O36: `reset` ignores the system it is applied to, and the reset state reads as zero at every register, slot and
address, so that every fetch finds a HALT. -/
theorem resetSetsEveryPieceOfState : Obligations.ResetSetsEveryPieceOfState := by
  intro sys
  refine ⟨State.reset, sys.act_reset, rfl, State.readV_reset, State.reset_pc, State.readS_reset, rfl, State.reset_status,
    State.reset_faultKind, State.reset_faultAddr, State.reset_faultWord, State.imemRd_reset, fun a h => ?_⟩
  exact ⟨State.fetch_reset h, decodeWord_zero⟩

end Sys2Proof.Machine

/-! PROOFS. The encoder and the decoder as each other's inverse, the illegal words and the assembler's bounds
(spec/30_encoding.md R50 to R55): O2, O4, O5, O6 and O7. -/

namespace Sys2Proof

/-! ## Decode of encode (R46, R51, R54) -/

theorem splitFields_encode_call (nnn : Addr) : (splitFields (encode (.call nnn))).nnn = nnn := by
  apply BitVec.eq_of_toNat_eq
  rw [splitFields_nnn_toNat, encode_call_toNat]
  omega

theorem splitFields_encode_add (x y : RegIx) :
    (splitFields (encode (.add x y))).x = x ∧ (splitFields (encode (.add x y))).y = y := by
  constructor <;> apply BitVec.eq_of_toNat_eq
  · rw [splitFields_x_toNat, encode_add_toNat]
    omega
  · rw [splitFields_y_toNat, encode_add_toNat]
    omega

theorem decodeWord_encode_call (nnn : Addr) : decodeWord (encode (.call nnn)) = .ok (.call nnn) := by
  have value := encode_call_toNat nnn
  have operand := splitFields_encode_call nnn
  rcases decodeWord_ranges (encode (.call nnn)) with h | h | ⟨-, -, e⟩ | h | h
  case inr.inr.inl => rw [e, operand]
  all_goals omega

theorem decodeWord_encode_add (x y : RegIx) : decodeWord (encode (.add x y)) = .ok (.add x y) := by
  have value := encode_add_toNat x y
  obtain ⟨first, second⟩ := splitFields_encode_add x y
  rcases decodeWord_ranges (encode (.add x y)) with h | h | h | ⟨-, -, -, e⟩ | h
  case inr.inr.inr.inl => rw [e, first, second]
  all_goals omega

/-- The word of an instruction decodes to that instruction. -/
@[simp] theorem decodeWord_encode (i : Instr) : decodeWord (encode i) = .ok i := by
  cases i with
  | halt => rfl
  | ret => rfl
  | call nnn => exact decodeWord_encode_call nnn
  | add x y => exact decodeWord_encode_add x y

/-- Settles O4: the bytes of an instruction make its word again, so the byte decoder answers as the word decoder does. -/
theorem decodeOfEncodeIsTheInstruction : Obligations.DecodeOfEncodeIsTheInstruction := by
  refine fun i _ => ⟨decodeWord_encode i, fun rest => ?_⟩
  rw [encodeBytes, bytesOfWord, List.cons_append, List.cons_append, decodeBytes_cons_cons, wordOfBytes_bytes,
    decodeWord_encode]
  rfl

/-! ## Encode of decode (R50, R51) -/

/-- A decoded word is the word of its instruction: the row fixes the bits outside the operands, and the operands are the
others. -/
theorem encode_of_decodeWord {w : Word} {i : Instr} (h : decodeWord w = .ok i) : encode i = w := by
  apply BitVec.eq_of_toNat_eq
  rcases decodeWord_ranges w with ⟨value, e⟩ | ⟨value, e⟩ | ⟨low, high, e⟩ | ⟨low, high, variant, e⟩ |
    ⟨-, -, -, -, e⟩ <;> cases e.symm.trans h
  · exact value.symm
  · exact value.symm
  · rw [encode_call_toNat, splitFields_nnn_toNat]
    omega
  · rw [encode_add_toNat, splitFields_x_toNat, splitFields_y_toNat]
    omega

/-- Settles O5: the word is its instruction's encoding, by `encode_of_decodeWord`. -/
theorem encodeOfDecodeIsTheWord : Obligations.EncodeOfDecodeIsTheWord :=
  fun _ _ => encode_of_decodeWord

/-! ## Sample words and illegal words (R51, R52) -/

/-- Settles O2: the decoder run on each word. -/
theorem sampleWordsDecodeAsTheTableSays : Obligations.SampleWordsDecodeAsTheTableSays := by
  unfold Obligations.SampleWordsDecodeAsTheTableSays
  decide

/-- The class of a word by its family, as ranges of words. -/
theorem illegalClass_splitFields (w : Word) :
    illegalClass (splitFields w) =
      if w.toNat < 0x1000 then .family0
      else if w.toNat < 0x2000 then .family1
      else if w.toNat < 0x8000 then .families3to7
      else if w.toNat < 0x9000 then .family8Variant
      else .families9toF := by
  have family := splitFields_o_toNat w
  have h0 : (splitFields w).o = 0x0#4 ↔ w.toNat < 0x1000 := by rw [← BitVec.toNat_inj, family, BitVec.toNat_ofNat]; omega
  have h1 : (splitFields w).o = 0x1#4 ↔ w.toNat / 4096 = 1 := by rw [← BitVec.toNat_inj, family, BitVec.toNat_ofNat]
  have h8 : (splitFields w).o = 0x8#4 ↔ w.toNat / 4096 = 8 := by rw [← BitVec.toNat_inj, family, BitVec.toNat_ofNat]
  simp only [illegalClass, h0, h1, h8, family]
  grind

/-- A word that decodes to an instruction is in none of the five classes. -/
theorem decodeWord_ne_error {w : Word} {i : Instr} (h : decodeWord w = .ok i) (c : IllegalClass) :
    decodeWord w ≠ .error c := by
  simp [h]

/-- Settles O6: the legal words are the ranges of `decodeWord_ranges`, and every other word is classed by its family. -/
theorem illegalWordsAreTheFiveClasses : Obligations.IllegalWordsAreTheFiveClasses := by
  intro w
  rcases decodeWord_ranges w with ⟨h, e⟩ | ⟨h, e⟩ | ⟨h, h', e⟩ | ⟨h, h', h'', e⟩ | ⟨h0, h1, h2, h3, e⟩
  case inr.inr.inr.inr =>
    rw [e, illegalClass_splitFields]
    split_ifs <;> simp <;> omega
  all_goals
    simp only [decodeWord_ne_error e, false_iff]
    omega

/-! ## The assembler (R55) -/

theorem encode_call_toNat_or (nnn : Addr) : (encode (.call nnn)).toNat = 0x2000 ||| nnn.toNat :=
  BitVec.toNat_append 0x2#4 nnn

theorem encode_add_toNat_or (x y : RegIx) : (encode (.add x y)).toNat = 0x8004 ||| (x.toNat <<< 8) ||| (y.toNat <<< 4) := by
  have parts : (encode (.add x y)).toNat = 0x8000 ||| (x.toNat <<< 8 ||| (y.toNat <<< 4 ||| 0x4)) := by
    rw [encode, BitVec.toNat_append, BitVec.toNat_append, BitVec.toNat_append]
    rfl
  have fixed : 0x8004 = 0x8000 ||| 0x4 := rfl
  rw [parts, fixed]
  ac_rfl

/-- Settles O7: within the bounds no operand is reduced, and the encoder joins bit fields that do not overlap. -/
theorem assemblyIsBoundedAndEncodesAsStated : Obligations.AssemblyIsBoundedAndEncodesAsStated := by
  refine ⟨fun addr h => ?call, fun x y hx hy => ?add, ⟨_, rfl, rfl⟩, ⟨_, rfl, rfl⟩, fun p h => ?illFormed,
    fun i => ?own⟩
  case call =>
    refine ⟨_, if_pos h, ?_⟩
    rw [encode_call_toNat_or, BitVec.toNat_ofNat, Nat.mod_eq_of_lt (by omega)]
  case add =>
    refine ⟨_, if_pos ⟨hx, hy⟩, ?_⟩
    rw [encode_add_toNat_or, BitVec.toNat_ofNat, BitVec.toNat_ofNat, Nat.mod_eq_of_lt (by omega), Nat.mod_eq_of_lt (by omega)]
  case illFormed =>
    cases p with
    | halt => cases h
    | ret => cases h
    | call addr => exact if_neg (of_decide_eq_false h)
    | add x y => exact if_neg (by simpa [Asm.wellFormed] using h)
  case own =>
    cases i with
    | halt => rfl
    | ret => rfl
    | call nnn =>
      have bound : nnn.toNat ≤ 4095 := Nat.le_of_lt_succ nnn.isLt
      rw [Instr.toAsm, Asm.assemble, if_pos bound, BitVec.ofNat_toNat, BitVec.setWidth_eq]
    | add x y =>
      have bounds : x.toNat ≤ 15 ∧ y.toNat ≤ 15 := ⟨Nat.le_of_lt_succ x.isLt, Nat.le_of_lt_succ y.isLt⟩
      rw [Instr.toAsm, Asm.assemble, if_pos bounds, BitVec.ofNat_toNat, BitVec.ofNat_toNat, BitVec.setWidth_eq,
        BitVec.setWidth_eq]

end Sys2Proof

/-! PROOFS. The step as a relation with one constructor for each of its outcomes, runs of steps (spec/40_control.md R57, R58;
spec/70_reset_and_hazards.md R92), and O11 and O15. -/

namespace Sys2Proof.Machine

/-! ## The state after an ADD or a CALL (R61, R67) -/

/-- What ADD makes of a state: the sum to `V[x]`, then the carry to VF. -/
def State.addRegs (s : State) (x y : RegIx) : State :=
  (s.writeV x (add8Sum (s.readV x) (s.readV y))).setVF (add8Carry (s.readV x) (s.readV y))

theorem exec_add (x y : RegIx) (s : State) : exec (.add x y) s = .next (s.addRegs x y) := rfl

/-- ADD writes the register file alone. -/
theorem State.addRegs_eq (s : State) (x y : RegIx) : s.addRegs x y = { s with V := (s.addRegs x y).V } := rfl

/-- What CALL makes of a state where the stack has room, seen from before the advance: the return address pushed, `pc` at the
target (R61). -/
def State.afterCall (s : State) (room : s.SP.val < 16) (nnn : Addr) : State :=
  { s with S := s.S.set s.SP.val (s.pc + 2#16) room, SP := ⟨s.SP.val + 1, by omega⟩, pc := callTarget nnn }

@[simp] theorem State.addRegs_faultKind (s : State) (x y : RegIx) : (s.addRegs x y).faultKind = s.faultKind := rfl

@[simp] theorem State.afterCall_faultKind (s : State) (room : s.SP.val < 16) (nnn : Addr) :
    (s.afterCall room nnn).faultKind = s.faultKind := rfl

@[simp] theorem State.afterCall_SP_val (s : State) (room : s.SP.val < 16) (nnn : Addr) :
    (s.afterCall room nnn).SP.val = s.SP.val + 1 := rfl

/-! ## One step (R58) -/

/-- `Moves s t`: a RUNNING block in `s` makes one step to `t`. One constructor for each outcome: the four faults, and what each
instruction does where it does not fault. -/
inductive Moves (s : State) : State → Prop
  | fetchFault (hf : s.fetch s.pc = none) : Moves s (s.raise .outOfBoundsFetch s.pc 0x0000#16)
  | illegalWord {w : Word} {c : IllegalClass} (hf : s.fetch s.pc = some w) (hd : decodeWord w = .error c) :
    Moves s (s.advance.raise .unimplementedInstruction s.pc w)
  | halt (hi : s.nextInstr = some .halt) : Moves s (s.advance.setStatus .halted)
  | retUnderflow (hi : s.nextInstr = some .ret) (empty : s.SP.val = 0) :
    Moves s (s.advance.raise .stackUnderflow s.pc (encode .ret))
  | ret (hi : s.nextInstr = some .ret) (k : Fin 16) (live : k.val + 1 = s.SP.val) :
    Moves s { s with SP := ⟨k.val, by omega⟩, pc := s.readS k }
  | callOverflow {nnn : Addr} (hi : s.nextInstr = some (.call nnn)) (full : s.SP.val = 16) :
    Moves s (s.advance.raise .stackOverflow s.pc (encode (.call nnn)))
  | call {nnn : Addr} (hi : s.nextInstr = some (.call nnn)) (room : s.SP.val < 16) :
    Moves s (s.afterCall room nnn)
  | add {x y : RegIx} (hi : s.nextInstr = some (.add x y)) : Moves s (s.advance.addRegs x y)

variable {s t : State}

theorem execRet_of_live {k : Fin 16} (live : k.val + 1 = s.SP.val) :
    execRet s = .next { s with SP := ⟨k.val, by omega⟩, pc := s.readS k } := by
  rcases execRet_cases s with ⟨empty, -⟩ | ⟨k', live', e⟩
  · omega
  · obtain rfl : k' = k := Fin.ext (by omega)
    exact e

theorem execCall_of_room (nnn : Addr) (room : s.SP.val < 16) :
    execCall nnn s = .next { s with
      S := s.S.set s.SP.val s.pc room, SP := ⟨s.SP.val + 1, by omega⟩, pc := callTarget nnn } := by
  rcases execCall_cases nnn s with ⟨full, -⟩ | ⟨_, e⟩
  · omega
  · exact e

theorem Moves.step_eq (hs : s.status = .running) (m : Moves s t) : step s = .next t := by
  cases m with
  | fetchFault hf => exact step_of_fetch_none hs hf
  | illegalWord hf hd => exact step_of_decode_error hs hf hd
  | halt hi => exact step_of_halt hs hi
  | retUnderflow hi empty => exact step_of_ret_empty hs hi empty
  | ret hi k live => exact (step_of_nextInstr hs hi).trans (execRet_of_live (s := s.advance) live)
  | callOverflow hi full => exact step_of_call_full hs hi full
  | call hi room => exact (step_of_nextInstr hs hi).trans (execCall_of_room (s := s.advance) _ room)
  | add hi => exact step_of_nextInstr hs hi

theorem exists_moves (hs : s.status = .running) : ∃ t, Moves s t := by
  rcases step_cases hs with ⟨hf, -⟩ | ⟨w, c, hf, hd, -⟩ | ⟨-, i, -, -, hi, -⟩
  · exact ⟨_, .fetchFault hf⟩
  · exact ⟨_, .illegalWord hf hd⟩
  · cases i with
    | halt => exact ⟨_, .halt hi⟩
    | ret =>
      rcases execRet_cases s with ⟨empty, -⟩ | ⟨k, live, -⟩
      · exact ⟨_, .retUnderflow hi empty⟩
      · exact ⟨_, .ret hi k live⟩
    | call nnn =>
      rcases execCall_cases nnn s with ⟨full, -⟩ | ⟨room, -⟩
      · exact ⟨_, .callOverflow hi full⟩
      · exact ⟨_, .call hi room⟩
    | add x y => exact ⟨_, .add hi⟩

/-- A step in RUNNING goes where `Moves` says, and nowhere else. -/
theorem step_eq_next_iff_moves (hs : s.status = .running) : step s = .next t ↔ Moves s t := by
  refine ⟨fun h => ?_, Moves.step_eq hs⟩
  obtain ⟨u, m⟩ := exists_moves hs
  cases (m.step_eq hs).symm.trans h
  exact m

/-- A step from any state: nothing where the block is stopped (R57), a move where it is RUNNING. -/
theorem stopped_or_moves (h : step s = .next t) : (s.stopped ∧ t = s) ∨ (s.status = .running ∧ Moves s t) := by
  by_cases hs : s.status = .running
  · exact .inr ⟨hs, (step_eq_next_iff_moves hs).mp h⟩
  · cases (step_of_stopped hs).symm.trans h
    exact .inl ⟨hs, rfl⟩

/-- Settles O11: a stopped block stays where it is, and every outcome of a step in RUNNING is a next state. -/
theorem everyStepAnswersNext : Obligations.EveryStepAnswersNext := by
  intro s
  by_cases hs : s.status = .running
  · obtain ⟨t, m⟩ := exists_moves hs
    exact ⟨t, m.step_eq hs⟩
  · exact ⟨s, step_of_stopped hs⟩

/-- What every move keeps, every step keeps. -/
theorem step_keeps_of_moves {P : State → Prop} (keep : ∀ {u v}, u.status = .running → Moves u v → P u → P v)
    (h : step s = .next t) (hs : P s) : P t := by
  rcases stopped_or_moves h with ⟨-, rfl⟩ | ⟨running, m⟩
  · exact hs
  · exact keep running m hs

/-! ## Runs (R92) -/

theorem runSteps_succ_eq_next_iff {n : Nat} :
    runSteps (n + 1) s = .next t ↔ ∃ u, step s = .next u ∧ runSteps n u = .next t := by
  obtain ⟨u, e⟩ := everyStepAnswersNext s
  rw [runSteps_succ_of_step n e, e]
  simp

theorem exists_runSteps (n : Nat) (s : State) : ∃ t, runSteps n s = .next t := by
  induction n generalizing s with
  | zero => exact ⟨s, rfl⟩
  | succ n ih =>
    obtain ⟨u, e⟩ := everyStepAnswersNext s
    rw [runSteps_succ_of_step n e]
    exact ih u

/-- A run of `n + 1` steps, by its last step. -/
theorem runSteps_last {n : Nat} (h : runSteps (n + 1) s = .next t) : ∃ u, runSteps n s = .next u ∧ step u = .next t := by
  obtain ⟨u, e⟩ := exists_runSteps n s
  obtain ⟨v, last, stop⟩ := runSteps_succ_eq_next_iff.mp ((runSteps_add 1 e).symm.trans h)
  cases stop
  exact ⟨u, e, last⟩

/-- What every step keeps, every run keeps. -/
theorem runSteps_induction {P : State → Prop} (keep : ∀ {u v}, step u = .next v → P u → P v) {n : Nat} (hs : P s)
    (h : runSteps n s = .next t) : P t := by
  induction n generalizing s with
  | zero =>
    cases h
    exact hs
  | succ n ih =>
    obtain ⟨u, first, rest⟩ := runSteps_succ_eq_next_iff.mp h
    exact ih (keep first hs) rest

/-- A relation that steps taken side by side keep, runs of equal length keep. -/
theorem runSteps_related {R : State → State → Prop}
    (keep : ∀ {u u' v v'}, step u = .next v → step u' = .next v' → R u u' → R v v') {n : Nat} {s' t' : State}
    (hs : R s s') (h : runSteps n s = .next t) (h' : runSteps n s' = .next t') : R t t' := by
  induction n generalizing s s' with
  | zero =>
    cases h
    cases h'
    exact hs
  | succ n ih =>
    obtain ⟨_, first, rest⟩ := runSteps_succ_eq_next_iff.mp h
    obtain ⟨_, first', rest'⟩ := runSteps_succ_eq_next_iff.mp h'
    exact ih (keep first first' hs) rest rest'

/-- Settles O15: a step of a stopped block leaves it as it is, so every number of steps does. -/
theorem stoppedBlockNeverChanges : Obligations.StoppedBlockNeverChanges := by
  intro n s hs
  induction n with
  | zero => rfl
  | succ n ih => rw [runSteps_succ_of_step n (step_of_stopped hs), ih]

end Sys2Proof.Machine

/-! PROOFS. What the handlers write and what they leave (spec/40_control.md R60 to R62; spec/41_arithmetic.md R67, R68): O16, O19,
O20, O23, O25, O26, O27 and O28. -/

namespace Sys2Proof.Machine

variable {s t : State}

/-! ## HALT, CALL and RET -/

theorem exec_halt (s : State) : exec .halt s = .next (s.setStatus .halted) := rfl

theorem State.lt_of_nextInstr {i : Instr} (hi : s.nextInstr = some i) : s.pc.toNat + 1 < 4096 := by
  obtain ⟨w, hf, -⟩ := (s.nextInstr_eq_some_iff i).mp hi
  exact State.lt_of_fetch_eq_some hf

/-- The advance after a fetch within memory adds 2 without wrapping (R59). -/
theorem pc_advance_toNat (h : s.pc.toNat + 1 < 4096) : (s.pc + 2#16).toNat = s.pc.toNat + 2 := by
  bv_omega

/-- Settles O16: HALT writes `status` alone, and the fetch that found it lies within memory. -/
theorem haltCompletesChangingOnlyStatus : Obligations.HaltCompletesChangingOnlyStatus :=
  fun s => ⟨exec_halt s, fun hs hi => ⟨step_of_halt hs hi, pc_advance_toNat (State.lt_of_nextInstr hi)⟩⟩

/-- Settles O19: the live case of RET. -/
theorem retPopsTheNewestReturnAddress : Obligations.RetPopsTheNewestReturnAddress :=
  fun s _ live => (exec_ret s).trans (execRet_of_live live.symm)

theorem execRet_of_empty (empty : s.SP.val = 0) :
    execRet s = .next (s.raise .stackUnderflow s.instrAddr (encode .ret)) := by
  rcases execRet_cases s with ⟨-, e⟩ | ⟨k, live, -⟩
  · exact e
  · omega

/-- Settles O20: the empty case of RET, with `pc - 2` written as the RET's own address. -/
theorem retOnEmptyStackUnderflows : Obligations.RetOnEmptyStackUnderflows := by
  intro s a hpc empty
  rw [exec_ret, execRet_of_empty empty, State.instrAddr_of_pc hpc]
  rfl

/-- A slot reads what was last written to it, and a write changes no other. -/
theorem State.readS_of_set {n : Nat} {v : Word} (hn : n < 16) (h : t.S = s.S.set n v hn) (j : Fin 16) :
    t.readS j = if j.val = n then v else s.readS j := by
  simp only [State.readS, h, Vector.getElem_set, eq_comm]

/-- Settles O23: what each handler writes, by its stack check. -/
theorem controlInstructionsFrame : Obligations.ControlInstructionsFrame := by
  intro i s t control h
  rcases control with rfl | rfl | ⟨nnn, rfl⟩
  · cases h
    refine ⟨fun _ => rfl, fun _ => rfl, fun _ => ?_, by simp⟩
    exact ⟨rfl, rfl, rfl, by simp, fun _ => ⟨rfl, rfl⟩, by simp, by simp, fun _ _ => rfl⟩
  · rcases execRet_cases s with ⟨empty, e⟩ | ⟨k, live, e⟩ <;> cases e.symm.trans h
    · exact ⟨fun _ => rfl, fun _ => rfl, by simp [empty], fun _ => ⟨rfl, rfl, fun _ => rfl⟩⟩
    · refine ⟨fun _ => rfl, fun _ => rfl, fun _ => ?_, by simp [← live]⟩
      exact ⟨rfl, rfl, rfl, fun _ => rfl, by simp, fun _ => live, by simp, fun _ _ => rfl⟩
  · rcases execCall_cases nnn s with ⟨full, e⟩ | ⟨room, e⟩ <;> cases e.symm.trans h
    · exact ⟨fun _ => rfl, fun _ => rfl, by simp [full], fun _ => ⟨rfl, rfl, fun _ => rfl⟩⟩
    · refine ⟨fun _ => rfl, fun _ => rfl, fun _ => ?_, by simp [Nat.ne_of_lt room]⟩
      exact ⟨rfl, rfl, rfl, fun _ => rfl, by simp, by simp, fun _ _ => rfl,
        fun j other => (State.readS_of_set room rfl j).trans (if_neg (other nnn rfl))⟩

/-! ## ADD -/

theorem State.readV_addRegs_flag (s : State) (x y : RegIx) :
    (s.addRegs x y).readV 0xF#4 = (add8Carry (s.readV x) (s.readV y)).setWidth 8 :=
  (State.readV_setVF ..).trans (if_pos rfl)

theorem State.readV_addRegs_dest (s : State) {x : RegIx} (y : RegIx) (hx : x ≠ 0xF#4) :
    (s.addRegs x y).readV x = add8Sum (s.readV x) (s.readV y) := by
  rw [State.addRegs, State.readV_setVF, if_neg hx, State.readV_writeV_self]

theorem State.readV_addRegs_other (s : State) {x r : RegIx} (y : RegIx) (hr : r ≠ x) (hf : r ≠ 0xF#4) :
    (s.addRegs x y).readV r = s.readV r := by
  rw [State.addRegs, State.readV_setVF, if_neg hf, State.readV_writeV_ne _ _ _ _ hr]

/-- VF after an ADD, as a number. -/
theorem State.flag_addRegs_toNat (s : State) (x y : RegIx) :
    ((s.addRegs x y).readV 0xF#4).toNat = if (s.readV x).toNat + (s.readV y).toNat > 255 then 1 else 0 := by
  rw [State.readV_addRegs_flag, add8Carry_setWidth_toNat]

/-- The destination of an ADD, where it is not VF, as a number. -/
theorem State.dest_addRegs_toNat (s : State) {x : RegIx} (y : RegIx) (hx : x ≠ 0xF#4) :
    ((s.addRegs x y).readV x).toNat = ((s.readV x).toNat + (s.readV y).toNat) % 256 := by
  rw [State.readV_addRegs_dest s y hx, add8Sum_toNat]

/-- Settles O25: VF is not the destination, so the sum written first stays. -/
theorem addWritesSumThenCarry : Obligations.AddWritesSumThenCarry := by
  intro x y s hx
  exact ⟨_, exec_add x y s, s.dest_addRegs_toNat y hx, s.flag_addRegs_toNat x y,
    fun _ hr hf => s.readV_addRegs_other y hr hf, s.addRegs_eq x y⟩

/-- Settles O26: the carry is written last, so it is what VF keeps. -/
theorem addIntoVFKeepsTheCarry : Obligations.AddIntoVFKeepsTheCarry := by
  intro y s
  exact ⟨_, exec_add _ y s, s.flag_addRegs_toNat _ y, fun _ hr => s.readV_addRegs_other y hr hr, s.addRegs_eq _ y⟩

/-- Settles O27: the carry is the sum's ninth bit. -/
theorem addCarryIsExact : Obligations.AddCarryIsExact := by
  intro x y s t hx h
  cases (exec_add x y s).symm.trans h
  have dest := s.dest_addRegs_toNat y hx
  have flag := s.flag_addRegs_toNat x y
  have hp := (s.readV x).isLt
  have hq := (s.readV y).isLt
  refine ⟨?exact, ?doubles⟩
  case exact =>
    rw [dest, flag]
    split_ifs <;> omega
  case doubles =>
    rintro rfl
    rw [dest, flag]
    refine ⟨by omega, ?_⟩
    split_ifs <;> simp only [true_iff, false_iff] <;> omega

/-- Settles O28: ADD writes `V[x]` and VF and no other field. -/
theorem addFrame : Obligations.AddFrame := by
  intro x y s t h
  cases (exec_add x y s).symm.trans h
  exact ⟨fun _ hr hf => s.readV_addRegs_other y hr hf, rfl, rfl, fun _ => rfl, rfl, rfl, rfl, rfl, fun _ => rfl⟩

end Sys2Proof.Machine

/-! PROOFS. Faults (spec/60_exceptions.md R71 to R80): O30, O32 and O33. -/

namespace Sys2Proof.Machine

variable {s t : State}

/-- The word fetched is the encoding of the instruction it decodes to (log 2). -/
theorem State.fetch_of_nextInstr {i : Instr} (hi : s.nextInstr = some i) : s.fetch s.pc = some (encode i) := by
  obtain ⟨w, hf, hd⟩ := (s.nextInstr_eq_some_iff i).mp hi
  rw [encode_of_decodeWord hd, hf]

/-- Settles O30: the fetch fails before the advance. -/
theorem fetchOutsideMemoryFaultsBeforeTheAdvance : Obligations.FetchOutsideMemoryFaultsBeforeTheAdvance :=
  fun s hs hpc => step_of_fetch_none hs ((s.fetch_eq_none_iff s.pc).mpr (Nat.succ_le_succ hpc))

/-- Settles O32: each outcome of the step has one kind, and at each the conditions are decided by `pc`, the next instruction and
`SP`. -/
theorem faultKindTellsTheFailingCheck : Obligations.FaultKindTellsTheFailingCheck := by
  intro s t hs clear h
  have within {i : Instr} (hi : s.nextInstr = some i) : s.pc.toNat < 4095 :=
    Nat.lt_of_succ_lt_succ (State.lt_of_nextInstr hi)
  cases (step_eq_next_iff_moves hs).mp h with
  | fetchFault hf =>
    have hpc := (s.fetch_eq_none_iff s.pc).mp hf
    simp [State.nextInstr_eq_none_of_fetch hf, hpc]
  | illegalWord hf hd =>
    have hpc := State.lt_of_fetch_eq_some hf
    simp [State.nextInstr_eq_none_of_illegal hf hd, hpc, Nat.lt_of_succ_lt_succ hpc]
  | halt hi =>
    simp [hi, clear, within hi]
  | retUnderflow hi empty =>
    simp [hi, empty, within hi]
  | ret hi k live =>
    simp [hi, clear, within hi, ← live]
  | callOverflow hi full =>
    simp [hi, full, within hi]
  | call hi room =>
    simp [hi, clear, within hi, Nat.ne_of_lt room]
  | add hi =>
    simp [hi, clear, within hi]

/-- Settles O33: only the four fault outcomes end FAULTED, and they write `pc`, the record and `status` alone. -/
theorem faultsArePrecise : Obligations.FaultsArePrecise := by
  intro s t hs h faulted
  have live : s.status ≠ .faulted := by simp [hs]
  cases (step_eq_next_iff_moves hs).mp h with
  | fetchFault hf => exact ⟨rfl, rfl, rfl, rfl, rfl, fun _ => ⟨rfl, rfl⟩, by simp⟩
  | illegalWord hf hd => exact ⟨rfl, rfl, rfl, rfl, rfl, by simp, fun _ => ⟨rfl, hf⟩⟩
  | retUnderflow hi empty => exact ⟨rfl, rfl, rfl, rfl, rfl, by simp, fun _ => ⟨rfl, State.fetch_of_nextInstr hi⟩⟩
  | callOverflow hi full => exact ⟨rfl, rfl, rfl, rfl, rfl, by simp, fun _ => ⟨rfl, State.fetch_of_nextInstr hi⟩⟩
  | halt hi => cases faulted
  | ret hi k _ => exact absurd faulted live
  | call hi room => exact absurd faulted live
  | add hi => exact absurd faulted live

end Sys2Proof.Machine

/-! PROOFS. What every step keeps: memory, VF's range and the invariant (spec/10_state.md R18, R21, R27; spec/20_memory.md R34):
O29, O39, O41, O42 and O44. -/

namespace Sys2Proof.Machine

variable {s t : State}

/-! ## Memory (R34, R44) -/

theorem Moves.M_eq (m : Moves s t) : t.M = s.M := by
  cases m <;> rfl

theorem runSteps_M {n : Nat} (h : runSteps n s = .next t) : t.M = s.M :=
  runSteps_induction (P := fun u => u.M = s.M) (step_keeps_of_moves fun _ m keep => m.M_eq.trans keep) rfl h

/-- Settles O39: no move writes memory, and reads and fetches look at memory alone. -/
theorem noRunChangesMemory : Obligations.NoRunChangesMemory := by
  intro n s t h
  have same := runSteps_M h
  exact ⟨same, fun b => by rw [State.imemRd, same, State.imemRd], State.fetch_congr same⟩

/-! ## VF (R18) -/

theorem State.flag_addRegs (s : State) (x y : RegIx) :
    (s.addRegs x y).readV 0xF#4 = 0#8 ∨ (s.addRegs x y).readV 0xF#4 = 1#8 := by
  rw [State.readV_addRegs_flag, add8Carry]
  split
  · exact .inr rfl
  · exact .inl rfl

/-- Only ADD writes registers, and it leaves VF 0 or 1. -/
theorem Moves.flag (m : Moves s t) (hs : s.readV 0xF#4 = 0#8 ∨ s.readV 0xF#4 = 1#8) :
    t.readV 0xF#4 = 0#8 ∨ t.readV 0xF#4 = 1#8 := by
  cases m with
  | add _ => exact s.advance.flag_addRegs _ _
  | fetchFault | illegalWord | halt | retUnderflow | ret | callOverflow | call => exact hs

/-- Settles O29: an ADD writes a carry bit to VF, and no other move writes a register. -/
theorem vfIsZeroOrOneOnceAnAddHasRun : Obligations.VFIsZeroOrOneOnceAnAddHasRun := by
  refine ⟨fun x y s t h => ?_, fun n s t hs h => ?_⟩
  · cases (exec_add x y s).symm.trans h
    exact s.flag_addRegs x y
  · exact runSteps_induction (P := fun u => u.readV 0xF#4 = 0#8 ∨ u.readV 0xF#4 = 1#8)
      (step_keeps_of_moves fun _ m => m.flag) hs h

/-! ## The invariant -/

/-- Settles O41: nothing is loaded, recorded or live. -/
theorem resetMeetsTheInvariant : Obligations.ResetMeetsTheInvariant :=
  ⟨rfl, ⟨by simp, fun _ => ⟨rfl, rfl, rfl⟩⟩, by simp [State.liveReturnsBounded]⟩

theorem State.recordConsistent_raise (s : State) {k : FaultKind} (hk : k ≠ .none) (a w : Word) :
    (s.raise k a w).recordConsistent :=
  ⟨fun _ => hk, fun h => absurd rfl h⟩

/-- A fault names its kind, and a move that is no fault leaves the record 0 (R27). -/
theorem Moves.recordConsistent (hs : s.status = .running) (m : Moves s t) (h : s.recordConsistent) : t.recordConsistent := by
  have live : s.status ≠ .faulted := by simp [hs]
  have clear := h.2 live
  cases m with
  | fetchFault | illegalWord | retUnderflow | callOverflow => exact State.recordConsistent_raise _ (by decide) _ _
  | halt _ => exact ⟨fun faulted => (by cases faulted), fun _ => clear⟩
  | ret | call | add => exact ⟨fun faulted => absurd faulted live, fun _ => clear⟩

theorem callTarget_le (nnn : Addr) : (callTarget nnn).toNat ≤ 0x1000 := by
  have := nnn.isLt
  rw [callTarget_toNat]
  omega

/-- The address after an instruction that was fetched is at most 0x1000 (R59, R72). -/
theorem pc_advance_le (h : s.pc.toNat + 1 < 4096) : (s.pc + 2#16).toNat ≤ 0x1000 := by
  rw [pc_advance_toNat h]
  omega

/-- CALL pushes an address it can have advanced to, and no other move makes a slot live (R21, R61). -/
theorem Moves.liveReturnsBounded (m : Moves s t) (h : s.liveReturnsBounded) : t.liveReturnsBounded := by
  cases m with
  | fetchFault | illegalWord | halt | retUnderflow | callOverflow | add => exact h
  | ret hi k live =>
    have newest : k.val < s.SP.val := by omega
    exact fun i below => h i (below.trans newest)
  | call hi room =>
    intro i below
    rw [State.readS_of_set room rfl]
    split_ifs with top
    · exact pc_advance_le (State.lt_of_nextInstr hi)
    · rw [State.afterCall_SP_val] at below
      exact h i (by omega)

/-- Settles O42: the three parts of the invariant, each kept by every move. -/
theorem everyStepKeepsTheInvariant : Obligations.EveryStepKeepsTheInvariant := by
  intro s t hs h
  refine step_keeps_of_moves (P := State.Inv) (fun running m inv => ?_) h hs
  obtain ⟨canonical, record, bounded⟩ := inv
  exact ⟨m.M_eq ▸ canonical, m.recordConsistent running record, m.liveReturnsBounded bounded⟩

/-- Settles O44: a fetch that fails keeps `pc`; every other outcome leaves the advanced `pc`, a CALL's target or a live slot. -/
theorem pcStaysWithinMemoryOrFaults : Obligations.PcStaysWithinMemoryOrFaults := by
  rintro s t hs ⟨-, -, bounded⟩ h
  cases (step_eq_next_iff_moves hs).mp h with
  | fetchFault hf => exact .inr ⟨rfl, rfl, rfl⟩
  | illegalWord hf hd => exact .inl (pc_advance_le (State.lt_of_fetch_eq_some hf))
  | halt hi | retUnderflow hi _ | callOverflow hi _ | add hi => exact .inl (pc_advance_le (State.lt_of_nextInstr hi))
  | ret hi k live => exact .inl (bounded k (by omega))
  | call hi room => exact .inl (callTarget_le _)

end Sys2Proof.Machine

/-! PROOFS. The host's port (spec/00_scope.md R7; spec/60_exceptions.md R82; spec/70_reset_and_hazards.md R89 to R92): O35,
O37, O38, O40, O43, O49, O50 and O51. -/

namespace Sys2Proof.Machine

variable {s t : State} {sys sys' : System}

/-! ## What the host reads (R7, R82) -/

theorem Status.code_eq_iff (a b : Status) : a.code = b.code ↔ a = b :=
  ⟨Status.code_inj, congrArg Status.code⟩

theorem FaultKind.code_eq_iff (a b : FaultKind) : a.code = b.code ↔ a = b :=
  ⟨FaultKind.code_inj, congrArg FaultKind.code⟩

theorem Status.code_ne_three (a : Status) : a.code ≠ 3#2 := by
  cases a <;> decide

theorem FaultKind.code_toNat_le (k : FaultKind) : k.code.toNat ≤ 4 := by
  cases k <;> decide

/-- Settles O35: the codes are one-to-one, and the other fields are shown as they are. -/
theorem statusPortShowsTheStatedEncodings : Obligations.StatusPortShowsTheStatedEncodings := by
  intro s
  have status := Status.code_eq_iff s.status
  have kind := FaultKind.code_eq_iff s.faultKind
  have depth : s.readOut.SP.toNat = s.SP.val := s.spPort_toNat
  exact ⟨status .running, status .halted, status .faulted, s.status.code_ne_three, kind .none, kind .outOfBoundsFetch,
    kind .stackOverflow, kind .stackUnderflow, kind .unimplementedInstruction, s.faultKind.code_toNat_le, rfl, rfl, depth,
    depth.trans_le (Nat.le_of_lt_succ s.SP.isLt)⟩

theorem State.SP_eq_of_spPort_eq (h : s.spPort = t.spPort) : s.SP = t.SP := by
  apply Fin.ext
  rw [← s.spPort_toNat, ← t.spPort_toNat, h]

/-- Settles O51: the two ports show every field, by a code that is one-to-one where it is not the field itself. -/
theorem hostReadsTheWholeState : Obligations.HostReadsTheWholeState := by
  refine ⟨fun s t port read => ?state, fun s t hs ht read => Memory.wf_ext hs.1 ht.1 read⟩
  case state =>
    have status : s.status = t.status := Status.code_inj (congrArg StatusPort.status port)
    have kind : s.faultKind = t.faultKind := FaultKind.code_inj (congrArg StatusPort.faultKind port)
    have depth : s.SP = t.SP := State.SP_eq_of_spPort_eq (congrArg ReadOut.SP read)
    cases s
    cases t
    exact State.mk.injEq .. ▸ ⟨congrArg ReadOut.V read, congrArg ReadOut.pc read, congrArg ReadOut.S read, depth, status,
      kind, congrArg StatusPort.faultAddr port, congrArg StatusPort.faultWord port, congrArg ReadOut.M read⟩

/-! ## The host's step (R89) -/

theorem System.act_step_eq_next_iff :
    sys.act .step = .next sys' ↔ ∃ t, step sys.state = .next t ∧ sys' = ⟨t, .run⟩ := by
  obtain ⟨t, e⟩ := everyStepAnswersNext sys.state
  rw [System.act_step_of_next e, e]
  simp [eq_comm]

theorem faultKind_ne_none_of_faulted (hs : s.status = .running) (h : step s = .next t) (faulted : t.status = .faulted) :
    t.faultKind ≠ .none := by
  rcases runEndsOnlyByHaltOrFault s t hs h (by simp [faulted]) with ⟨-, halted, -⟩ | ⟨-, -, kind⟩
  · cases faulted.symm.trans halted
  · exact kind

/-- Settles O50: a fault writes nothing that the host reads but `pc` and the record, and a stopped block does nothing more. -/
theorem hostReadsWhatTheFaultLeft : Obligations.HostReadsWhatTheFaultLeft := by
  intro sys sys' hs h faulted
  obtain ⟨t, ht, rfl⟩ := System.act_step_eq_next_iff.mp h
  obtain ⟨sameV, sameS, sameSP, sameM, addr, -, -⟩ := faultsArePrecise sys.state t hs ht faulted
  refine ⟨congrArg Status.code faulted, mt (FaultKind.code_eq_iff t.faultKind .none).mp ?kind, addr, sameV, sameS, ?depth,
    fun a => ?byte, fun sys'' h' => ?further⟩
  case kind => exact faultKind_ne_none_of_faulted hs ht faulted
  case depth => rw [System.readOut_eq, System.readOut_eq, State.readOut_SP, State.readOut_SP, State.spPort, sameSP, State.spPort]
  case byte => exact congrArg (fun M : Memory => M.read a) sameM
  case further =>
    have stopped : t.stopped := fun running => by cases running.symm.trans faulted
    cases (System.act_step_of_next (step_of_stopped stopped)).symm.trans h'
    exact ⟨rfl, rfl⟩

/-! ## Loads (R89) -/

/-- Settles O37: in the load phase each action is one write of `State`, read back by its own law. -/
theorem loadsWriteOnlyTheirPlaceInTheLoadPhase : Obligations.LoadsWriteOnlyTheirPlaceInTheLoadPhase := by
  intro s
  refine ⟨fun i v => ?reg, fun v => rfl, fun a b => ?mem, fun a b h => if_neg (Nat.not_lt.mpr h), fun sys' h => ?step⟩
  case reg => exact ⟨_, rfl, s.readV_writeV_self i v, fun j hj => s.readV_writeV_ne i j v hj, rfl⟩
  case mem =>
    refine ⟨s.writeM a b, ?_, fun canonical => ⟨?_, fun c hc => ?_, Memory.wf_write canonical a b⟩, rfl⟩
    · rw [System.act, hostLoadMem, if_pos a.isLt, BitVec.ofNat_toNat, BitVec.setWidth_eq]
    · exact (Memory.read_write canonical a a b).trans (if_pos rfl)
    · exact (Memory.read_write canonical a c b).trans (if_neg hc)
  case step =>
    obtain ⟨t, -, rfl⟩ := System.act_step_eq_next_iff.mp h
    rfl

/-- Settles O38: the run phase's arms of each action. -/
theorem loadsAfterTheFirstStepChangeNothing : Obligations.LoadsAfterTheFirstStepChangeNothing := by
  refine fun s => ⟨System.act_loadReg_run s, System.act_loadPc_run s, fun _ _ => rfl, fun sys' h => ?_⟩
  obtain ⟨t, ht, rfl⟩ := System.act_step_eq_next_iff.mp h
  exact ⟨rfl, ht⟩

/-! ## Runs from the host (R92) -/

/-- The loop of R92 is the repetition of the step: it leaves out only steps of a stopped block. -/
theorem runLoop_eq_runSteps (n : Nat) (s : State) : runLoop n s = runSteps n s := by
  induction n generalizing s with
  | zero => rfl
  | succ n ih =>
    by_cases hs : s.status = .running
    · obtain ⟨t, e⟩ := everyStepAnswersNext s
      rw [runLoop_succ_of_step n hs e, runSteps_succ_of_step n e, ih]
    · rw [runLoop_of_stopped _ hs, stoppedBlockNeverChanges _ s hs]

/-- In the run phase the host's steps are the block's, whatever ignored loads stand between them. -/
theorem acts_run_phase (acts : List HostAction) (s : State)
    (allowed : ∀ act ∈ acts, act = .step ∨ (∃ i v, act = .loadReg i v) ∨ ∃ v, act = .loadPc v) :
    ∃ t, runSteps (acts.count .step) s = .next t ∧
      System.acts { state := s, phase := .run } acts = .next { state := t, phase := .run } := by
  induction acts generalizing s with
  | nil => exact ⟨s, rfl, rfl⟩
  | cons act acts ih =>
    obtain ⟨first, others⟩ := List.forall_mem_cons.mp allowed
    rcases first with rfl | load
    · obtain ⟨u, e⟩ := everyStepAnswersNext s
      obtain ⟨t, run, go⟩ := ih u others
      refine ⟨t, ?_, System.acts_cons_eq_next_iff.mpr ⟨_, System.act_step_of_next e, go⟩⟩
      rw [List.count_cons_self, runSteps_succ_of_step _ e, run]
    · have ignored : act ≠ .step ∧
          System.act { state := s, phase := .run } act = .next { state := s, phase := .run } := by
        rcases load with ⟨i, v, rfl⟩ | ⟨v, rfl⟩ <;> exact ⟨nofun, rfl⟩
      obtain ⟨t, run, go⟩ := ih s others
      refine ⟨t, ?_, System.acts_cons_eq_next_iff.mpr ⟨_, ignored.2, go⟩⟩
      rw [List.count_cons_of_ne ignored.1, run]

/-- Settles O40: the loop, the steps and the host's own steps each reduce to `runSteps`. -/
theorem pausingARunChangesNothing : Obligations.PausingARunChangesNothing := by
  refine ⟨runLoop_eq_runSteps, fun m n s t h stopped => ?_, acts_run_phase⟩
  rw [runLoop_eq_runSteps] at h ⊢
  rw [runSteps_add m h, stoppedBlockNeverChanges m t stopped]

/-! ## The invariant, and what the loads leave (R89 to R91) -/

/-- A load goes on in the same phase and leaves a canonical memory canonical. -/
theorem System.act_load_phase_wf {act : HostAction} (hreset : act ≠ .reset) (hstep : act ≠ .step)
    (h : sys.act act = .next sys') : sys'.phase = sys.phase ∧ (sys.state.M.wf = true → sys'.state.M.wf = true) := by
  obtain ⟨s, phase⟩ := sys
  cases act with
  | reset => exact absurd rfl hreset
  | step => exact absurd rfl hstep
  | loadReg i v => cases phase <;> cases h <;> exact ⟨rfl, id⟩
  | loadPc v => cases phase <;> cases h <;> exact ⟨rfl, id⟩
  | loadMem a b =>
    cases phase with
    | run => cases h
    | load =>
      simp only [System.act, hostLoadMem] at h
      split at h <;> cases h
      exact ⟨rfl, fun canonical => Memory.wf_write canonical _ _⟩

/-- Of the invariant a load can touch only the part on memory. -/
theorem System.act_load_inv {act : HostAction} (hreset : act ≠ .reset) (hstep : act ≠ .step)
    (h : sys.act act = .next sys') (hs : sys.state.Inv) : sys'.state.Inv := by
  obtain ⟨canonical, rest⟩ := hs
  obtain ⟨_, _, _, e⟩ := System.act_load_frame hreset hstep h
  refine ⟨(System.act_load_phase_wf hreset hstep h).2 canonical, ?_⟩
  rw [e]
  exact rest

/-- Settles O43: a reset gives the reset state, a step is the block's, and the other actions are loads. -/
theorem everyHostActionKeepsTheInvariant : Obligations.EveryHostActionKeepsTheInvariant := by
  intro sys sys' act hs h
  by_cases hreset : act = .reset
  · subst hreset
    cases h
    exact resetMeetsTheInvariant
  by_cases hstep : act = .step
  · subst hstep
    obtain ⟨t, ht, rfl⟩ := System.act_step_eq_next_iff.mp h
    exact everyStepKeepsTheInvariant sys.state t hs ht
  · exact System.act_load_inv hreset hstep h hs

/-- What every action of a list keeps, the list keeps. -/
theorem System.acts_induction {P : System → Prop} {acts : List HostAction}
    (keep : ∀ act ∈ acts, ∀ {u v : System}, u.act act = .next v → P u → P v) (h : sys.acts acts = .next sys')
    (hs : P sys) : P sys' := by
  induction acts generalizing sys with
  | nil =>
    cases h
    exact hs
  | cons act acts ih =>
    obtain ⟨first, others⟩ := List.forall_mem_cons.mp keep
    obtain ⟨mid, hact, hacts⟩ := System.acts_cons_eq_next_iff.mp h
    exact ih others hacts (first hact hs)

/-- What is so from a reset up to the first step (R89 to R91): all but registers, `pc` and memory stand as the reset left
them. -/
structure System.Loading (sys : System) : Prop where
  phase : sys.phase = .load
  status : sys.state.status = .running
  SP : sys.state.SP.val = 0
  S : sys.state.S = State.reset.S
  faultKind : sys.state.faultKind = .none
  inv : sys.state.Inv

theorem System.loading_afterReset : System.afterReset.Loading :=
  ⟨rfl, rfl, rfl, rfl, rfl, resetMeetsTheInvariant⟩

theorem System.Loading.of_load {act : HostAction} (hreset : act ≠ .reset) (hstep : act ≠ .step)
    (h : sys.act act = .next sys') (hs : sys.Loading) : sys'.Loading := by
  have phase := (System.act_load_phase_wf hreset hstep h).1.trans hs.phase
  have inv := System.act_load_inv hreset hstep h hs.inv
  obtain ⟨_, _, _, e⟩ := System.act_load_frame hreset hstep h
  exact ⟨phase, e ▸ hs.status, e ▸ hs.SP, e ▸ hs.S, e ▸ hs.faultKind, inv⟩

/-- Settles O49: loads keep `System.Loading`, which a reset establishes. -/
theorem loadedStateIsWhatTheFirstStepRunsFrom : Obligations.LoadedStateIsWhatTheFirstStepRunsFrom := by
  intro acts sys loads h
  have keep : ∀ act ∈ acts, ∀ {u v : System}, u.act act = .next v → u.Loading → v.Loading :=
    fun act mem _ _ hact => System.Loading.of_load (loads act mem).2 (loads act mem).1 hact
  obtain ⟨phase, status, depth, slots, kind, inv⟩ := System.acts_induction keep h System.loading_afterReset
  exact ⟨phase, status, depth, slots, kind, inv, fun _ => System.act_step_of_next⟩

end Sys2Proof.Machine

/-! PROOFS. What no run depends on: registers never steer control, and dead slots are never read (spec/10_state.md R17, R24, R28):
O46 and O45. -/

namespace Sys2Proof.Machine

variable {s s' t t' : State}

/-! ## Registers (R17, R28) -/

/-- A move from a state is a move from any state that differs in registers alone, to a state that differs in registers alone. -/
theorem Moves.withV (m : Moves s t) (V : Vector Byte 16) : ∃ W, Moves { s with V := V } { t with V := W } := by
  cases m with
  | fetchFault hf => exact ⟨V, .fetchFault hf⟩
  | illegalWord hf hd => exact ⟨V, .illegalWord hf hd⟩
  | halt hi => exact ⟨V, .halt hi⟩
  | retUnderflow hi empty => exact ⟨V, .retUnderflow hi empty⟩
  | ret hi k live => exact ⟨V, .ret (s := { s with V := V }) hi k live⟩
  | callOverflow hi full => exact ⟨V, .callOverflow hi full⟩
  | call hi room => exact ⟨V, .call (s := { s with V := V }) hi room⟩
  | add hi => exact ⟨_, .add hi⟩

/-- Two states that are equal but for the registers. -/
def State.EqualButV (s s' : State) : Prop := ∃ V, s' = { s with V := V }

theorem step_keeps_equalButV (h : step s = .next t) (h' : step s' = .next t') (alike : s.EqualButV s') : t.EqualButV t' := by
  obtain ⟨V, rfl⟩ := alike
  rcases stopped_or_moves h with ⟨stopped, rfl⟩ | ⟨hs, m⟩
  · cases (step_of_stopped (s := { t with V := V }) stopped).symm.trans h'
    exact ⟨V, rfl⟩
  · obtain ⟨W, m'⟩ := m.withV V
    cases (Moves.step_eq (s := { s with V := V }) hs m').symm.trans h'
    exact ⟨W, rfl⟩

/-- Settles O46: side by side, steps keep two states equal but for registers. -/
theorem registersNeverSteerControl : Obligations.RegistersNeverSteerControl := by
  intro n s t t' otherV h h'
  have alike : s.EqualButV { s with V := otherV } := ⟨otherV, rfl⟩
  obtain ⟨W, rfl⟩ := runSteps_related step_keeps_equalButV alike h h'
  rfl

/-! ## Slots (R24) -/

/-- The slots below `d` hold in `t` what they hold in `s`. -/
def SlotsAgree (d : Nat) (s t : State) : Prop := ∀ j : Fin 16, j.val < d → t.readS j = s.readS j

theorem SlotsAgree.trans {d : Nat} {u : State} (h : SlotsAgree d s t) (h' : SlotsAgree d t u) : SlotsAgree d s u :=
  fun j below => (h' j below).trans (h j below)

theorem SlotsAgree.mono {d d' : Nat} (le : d' ≤ d) (h : SlotsAgree d s t) : SlotsAgree d' s t :=
  fun j below => h j (below.trans_le le)

/-- Two states that are equal but for the slots that are not live. -/
def State.EqualButDeadSlots (s s' : State) : Prop := ∃ S, s' = { s with S := S } ∧ SlotsAgree s.SP.val s' s

/-- A move reads live slots alone: RET the newest of them, the others none. -/
theorem Moves.withS (m : Moves s t) {S : Vector Word 16} (live : SlotsAgree s.SP.val { s with S := S } s) :
    ∃ T, Moves { s with S := S } { t with S := T } ∧ SlotsAgree t.SP.val { t with S := T } t := by
  cases m with
  | fetchFault hf => exact ⟨S, .fetchFault hf, live⟩
  | illegalWord hf hd => exact ⟨S, .illegalWord hf hd, live⟩
  | halt hi => exact ⟨S, .halt hi, live⟩
  | retUnderflow hi empty => exact ⟨S, .retUnderflow hi empty, live⟩
  | callOverflow hi full => exact ⟨S, .callOverflow hi full, live⟩
  | add hi => exact ⟨S, .add hi, live⟩
  | ret hi k top =>
    rw [live k (by omega)]
    have newest : k.val < s.SP.val := by omega
    exact ⟨S, .ret (s := { s with S := S }) hi k top, live.mono newest.le⟩
  | call hi room =>
    refine ⟨_, .call (s := { s with S := S }) hi room, fun j below => ?_⟩
    refine (State.readS_of_set room rfl j).trans (.trans ?_ (State.readS_of_set (s := { s with S := S }) room rfl j).symm)
    split_ifs with top
    · rfl
    · rw [State.afterCall_SP_val] at below
      exact live j (by omega)

theorem step_keeps_equalButDeadSlots (h : step s = .next t) (h' : step s' = .next t') (alike : s.EqualButDeadSlots s') :
    t.EqualButDeadSlots t' := by
  obtain ⟨S, rfl, live⟩ := alike
  rcases stopped_or_moves h with ⟨stopped, rfl⟩ | ⟨hs, m⟩
  · cases (step_of_stopped (s := { t with S := S }) stopped).symm.trans h'
    exact ⟨S, rfl, live⟩
  · obtain ⟨T, m', live'⟩ := m.withS live
    cases (Moves.step_eq (s := { s with S := S }) hs m').symm.trans h'
    exact ⟨T, rfl, live'⟩

/-- Settles O45: side by side, steps keep two states equal but for slots that are not live. -/
theorem staleSlotsAreNeverRead : Obligations.StaleSlotsAreNeverRead := by
  intro n s t t' otherS live h h'
  have alike : s.EqualButDeadSlots { s with S := otherS } := ⟨otherS, rfl, live⟩
  obtain ⟨T, rfl, live'⟩ := runSteps_related step_keeps_equalButDeadSlots alike h h'
  exact ⟨rfl, live'⟩

end Sys2Proof.Machine

/-! PROOFS. Call and return pair up (spec/40_control.md R65), and every run ends (spec/70_reset_and_hazards.md R97): O47 and O48. -/

namespace Sys2Proof.Machine

variable {s t u v r : State}

/-- `t` goes on where the instruction at `s` is over, its subroutine too where it is a CALL: at the next instruction, at the
depth of `s`, with the live slots of `s` as they were. -/
structure State.Resumes (s t : State) : Prop where
  status : t.status = .running
  pc : t.pc = s.pc + 2#16
  SP : t.SP = s.SP
  slots : SlotsAgree s.SP.val s t

/-! ## Inside a subroutine (R65) -/

/-- `u` is inside the subroutine that a CALL at `s` entered: the return address stands on the live slots of `s`. -/
structure State.Inside (s u : State) : Prop where
  deep : s.SP.val + 1 ≤ u.SP.val
  returnAddress : ∀ k : Fin 16, k.val = s.SP.val → u.readS k = s.pc + 2#16
  slots : SlotsAgree s.SP.val s u

theorem State.slotsAgree_afterCall (room : s.SP.val < 16) (nnn : Addr) : SlotsAgree s.SP.val s (s.afterCall room nnn) :=
  fun j below => (State.readS_of_set room rfl j).trans (if_neg (Nat.ne_of_lt below))

theorem State.inside_afterCall (room : s.SP.val < 16) (nnn : Addr) : s.Inside (s.afterCall room nnn) where
  deep := le_rfl
  returnAddress k top := (State.readS_of_set room rfl k).trans (if_pos top)
  slots := State.slotsAgree_afterCall room nnn

/-- Only a RET at the subroutine's own depth leaves it: a deeper RET pops another slot, and a CALL pushes above the return
address. -/
theorem State.Inside.of_moves (h : s.Inside u) (m : Moves u v)
    (stays : ¬ (u.nextInstr = some .ret ∧ u.SP.val = s.SP.val + 1)) : s.Inside v := by
  obtain ⟨deep, returnAddress, slots⟩ := h
  cases m with
  | fetchFault | illegalWord | halt | retUnderflow | callOverflow | add => exact ⟨deep, returnAddress, slots⟩
  | ret hi k live =>
    have deeper : u.SP.val ≠ s.SP.val + 1 := fun same => stays ⟨hi, same⟩
    have remains : s.SP.val + 1 ≤ k.val := by omega
    exact ⟨remains, returnAddress, slots⟩
  | @call nnn hi room =>
    have pushed := State.slotsAgree_afterCall room nnn
    exact ⟨Nat.le_succ_of_le deep, fun k top => (pushed k (by omega)).trans (returnAddress k top),
      slots.trans (pushed.mono (by omega))⟩

theorem State.Inside.of_step (h : s.Inside u) (hv : step u = .next v)
    (stays : ¬ (u.nextInstr = some .ret ∧ u.SP.val = s.SP.val + 1)) : s.Inside v := by
  rcases stopped_or_moves hv with ⟨-, rfl⟩ | ⟨-, m⟩
  · exact h
  · exact h.of_moves m stays

/-- The RET that leaves the subroutine goes on after the CALL. -/
theorem State.Inside.resumes_of_ret (h : s.Inside r) (hr : r.status = .running) (hi : r.nextInstr = some .ret)
    (depth : r.SP.val = s.SP.val + 1) (ht : step r = .next t) : s.Resumes t := by
  have m := Moves.ret hi ⟨s.SP.val, by omega⟩ depth.symm
  cases (m.step_eq hr).symm.trans ht
  exact ⟨hr, h.returnAddress _ rfl, rfl, h.slots⟩

/-- Settles O47: up to the first RET at its own depth the run stays inside the subroutine. -/
theorem callAndReturnPairUp : Obligations.CallAndReturnPairUp := by
  intro s r t nnn n hs hi room hr running hret depth first ht
  have called : step s = .next (s.afterCall room nnn) := (Moves.call hi room).step_eq hs
  have inside : ∀ m u, m ≤ n → runSteps (m + 1) s = .next u → s.Inside u := by
    intro m
    induction m with
    | zero =>
      intro u _ hu
      cases (runSteps_succ_of_step 0 called).symm.trans hu
      exact State.inside_afterCall room nnn
    | succ m ih =>
      intro u hm hu
      obtain ⟨v, hv, last⟩ := runSteps_last hu
      exact (ih v (by omega) hv).of_step last (first m v (by omega) hv)
  obtain ⟨status, pc, SP, slots⟩ := (inside n r le_rfl hr).resumes_of_ret running hret depth ht
  exact ⟨fun m u hm hu => (inside m u hm hu).deep, status, pc, SP, slots⟩

/-! ## Every run ends (R97) -/

/-- `t` is where the subroutine that `s` runs in has returned to: the address in the newest slot of `s`, with the slots below as
they were. -/
structure State.Returned (s t : State) : Prop where
  status : t.status = .running
  depth : t.SP.val + 1 = s.SP.val
  pc : ∀ k : Fin 16, k.val = t.SP.val → t.pc = s.readS k
  slots : SlotsAgree t.SP.val s t

/-- Within `n` steps the block has stopped, or the subroutine `s` runs in has returned. -/
def State.EndsWithin (s : State) (n : Nat) : Prop :=
  ∃ m ≤ n, ∃ t, runSteps m s = .next t ∧ (t.stopped ∨ s.Returned t)

/-- A subroutine's return is a return from where its caller's depth was resumed. -/
theorem State.Resumes.returned (h : s.Resumes t) (hu : t.Returned u) : s.Returned u := by
  obtain ⟨-, -, same, slots⟩ := h
  obtain ⟨status, depth, pc, slots'⟩ := hu
  have depth' : u.SP.val + 1 = s.SP.val := by rw [depth, same]
  exact ⟨status, depth', fun k top => (pc k top).trans (slots k (by omega)), (slots.mono (by omega)).trans slots'⟩

/-- A subroutine entered from `s` that returns resumes `s`. -/
theorem State.resumes_of_returned_afterCall {room : s.SP.val < 16} {nnn : Addr} (h : (s.afterCall room nnn).Returned t) :
    s.Resumes t := by
  obtain ⟨status, depth, pc, slots⟩ := h
  have inside := State.inside_afterCall room nnn
  have same : t.SP.val = s.SP.val := Nat.succ_inj.mp depth
  exact ⟨status, (pc ⟨s.SP.val, room⟩ same.symm).trans (inside.returnAddress _ rfl), Fin.ext same,
    inside.slots.trans (same ▸ slots)⟩

/-- One instruction with all its subroutine does: within one step more than any subroutine takes, the run has stopped or
returned, or it goes on at the next instruction of the same depth. -/
theorem exists_pass {n : Nat} (hs : s.status = .running)
    (subroutines : ∀ u : State, u.status = .running → u.SP.val = s.SP.val + 1 → u.EndsWithin n) :
    ∃ m ≤ n + 1, ∃ t, runSteps m s = .next t ∧
      ((t.stopped ∨ s.Returned t) ∨ (s.pc.toNat + 1 < 4096 ∧ s.Resumes t)) := by
  obtain ⟨t, m⟩ := exists_moves hs
  have one : runSteps 1 s = .next t := runSteps_succ_of_step 0 (m.step_eq hs)
  have short : 1 ≤ n + 1 := Nat.le_add_left 1 n
  cases m with
  | fetchFault | illegalWord | halt | retUnderflow | callOverflow =>
    exact ⟨1, short, _, one, .inl (.inl (by simp [State.stopped]))⟩
  | ret hi k live =>
    refine ⟨1, short, _, one, .inl (.inr ⟨hs, live, fun j top => ?_, fun _ _ => rfl⟩)⟩
    exact congrArg s.readS (Fin.ext top.symm)
  | add hi => exact ⟨1, short, _, one, .inr ⟨State.lt_of_nextInstr hi, hs, rfl, rfl, fun _ _ => rfl⟩⟩
  | @call nnn hi room =>
    obtain ⟨m, le, t, run, ended⟩ := subroutines (s.afterCall room nnn) hs rfl
    refine ⟨1 + m, by omega, t, (runSteps_add m one).trans run, ?_⟩
    rcases ended with stopped | returned
    · exact .inl (.inl stopped)
    · exact .inr ⟨State.lt_of_nextInstr hi, State.resumes_of_returned_afterCall returned⟩

/-- A run at one depth: each pass but the last moves `pc` up by 2, so `p` passes after the first bring it past memory. -/
theorem endsWithin_of_subroutines {n : Nat} (p : Nat) (hs : s.status = .running) (hp : 4095 ≤ s.pc.toNat + 2 * p)
    (subroutines : ∀ u : State, u.status = .running → u.SP.val = s.SP.val + 1 → u.EndsWithin n) :
    s.EndsWithin ((p + 1) * (n + 1)) := by
  induction p generalizing s with
  | zero =>
    obtain ⟨m, le, t, run, ended | ⟨within, -⟩⟩ := exists_pass hs subroutines
    · exact ⟨m, by omega, t, run, ended⟩
    · omega
  | succ p ih =>
    obtain ⟨m, le, t, run, ended | ⟨within, resumes⟩⟩ := exists_pass hs subroutines
    · exact ⟨m, le.trans (Nat.le_mul_of_pos_left _ (Nat.succ_pos _)), t, run, ended⟩
    · have pc : t.pc.toNat = s.pc.toNat + 2 := by rw [resumes.pc, pc_advance_toNat within]
      obtain ⟨m', le', u, run', ended⟩ := ih resumes.status (by omega) (by rwa [resumes.SP])
      have total : m + m' ≤ (p + 1 + 1) * (n + 1) := by
        rw [Nat.succ_mul]
        omega
      exact ⟨m + m', total, u, (runSteps_add m' run).trans run', ended.imp_right resumes.returned⟩

/-- The bound of R97, by the depth: `c` is the number of free slots, and one more. -/
theorem endsWithin_pow (c : Nat) (hs : s.status = .running) (depth : s.SP.val + c = 17) :
    s.EndsWithin (2050 ^ c - 1) := by
  induction c generalizing s with
  | zero =>
    have := s.SP.isLt
    omega
  | succ c ih =>
    have deeper : ∀ u : State, u.status = .running → u.SP.val = s.SP.val + 1 → u.EndsWithin (2050 ^ c - 1) :=
      fun u hu more => ih hu (by omega)
    obtain ⟨m, le, ended⟩ := endsWithin_of_subroutines 2048 hs (by omega) deeper
    have pos : 0 < 2050 ^ c := Nat.pow_pos (by decide)
    exact ⟨m, by rw [Nat.pow_succ]; omega, ended⟩

theorem State.stopped_iff : s.stopped ↔ s.status = .halted ∨ s.status = .faulted := by
  unfold State.stopped
  cases s.status <;> simp

/-- Settles O48: from an empty stack nothing returns. -/
theorem everyRunEnds : Obligations.EveryRunEnds := by
  intro s hs empty
  obtain ⟨m, le, t, run, stopped | returned⟩ := endsWithin_pow 17 hs (by omega)
  · exact ⟨m, le.trans (Nat.sub_le _ _), t, run, State.stopped_iff.mp stopped⟩
  · have := returned.depth
    omega

end Sys2Proof.Machine
